-- ==== Sys2Proof/Word.lean ====
section
/-! DEFINITION. The bit-vector types the spec's registers and fields have (00_scope.md R5: bit 0 is the least significant bit, every value is unsigned). -/

namespace Sys2Proof

/-- An 8-bit value: a general register, a timer, a memory cell, an immediate `NN`. -/
abbrev Byte := BitVec 8

/-- A 16-bit value: `I`, `pc`, a stack slot, an instruction word. -/
abbrev Word := BitVec 16

/-- A 4-bit register index `X` or `Y` (30_encoding.md R91, R93); every value names one of the 16 registers. -/
abbrev Reg := BitVec 4

/-- A 12-bit address immediate `NNN` (30_encoding.md R91). -/
abbrev Addr12 := BitVec 12

end Sys2Proof
end

