-- ==== Sys2Proof/Syntax.lean ====
section
/-! DEFINITION. The instruction type: one constructor per row of spec/opcode_table.json, in the table's order, its arguments the operand fields of the row's format (30_encoding.md R92, R95). -/

namespace Sys2Proof

/-- The 34 instructions of 30_encoding.md R95. Operand fields carry their exact width, so an operand
out of range cannot be written. -/
inductive Instr where
  /-- `CLS`, 00E0. -/
  | cls
  /-- `RET`, 00EE. -/
  | ret
  /-- `JP nnn`, 1NNN. -/
  | jp (nnn : Addr12)
  /-- `CALL nnn`, 2NNN. -/
  | call (nnn : Addr12)
  /-- `SE Vx, nn`, 3XNN. -/
  | seVxNn (x : Reg) (nn : Byte)
  /-- `SNE Vx, nn`, 4XNN. -/
  | sneVxNn (x : Reg) (nn : Byte)
  /-- `SE Vx, Vy`, 5XY0. -/
  | seVxVy (x y : Reg)
  /-- `LD Vx, nn`, 6XNN. -/
  | ldVxNn (x : Reg) (nn : Byte)
  /-- `ADD Vx, nn`, 7XNN. -/
  | addVxNn (x : Reg) (nn : Byte)
  /-- `LD Vx, Vy`, 8XY0. -/
  | ldVxVy (x y : Reg)
  /-- `OR Vx, Vy`, 8XY1. -/
  | or (x y : Reg)
  /-- `AND Vx, Vy`, 8XY2. -/
  | and (x y : Reg)
  /-- `XOR Vx, Vy`, 8XY3. -/
  | xor (x y : Reg)
  /-- `ADD Vx, Vy`, 8XY4. -/
  | addVxVy (x y : Reg)
  /-- `SUB Vx, Vy`, 8XY5. -/
  | sub (x y : Reg)
  /-- `SHR Vx`, 8XY6. `y` is the ignored field, any value (30_encoding.md R97). -/
  | shr (x y : Reg)
  /-- `SUBN Vx, Vy`, 8XY7. -/
  | subn (x y : Reg)
  /-- `SHL Vx`, 8XYE. `y` is the ignored field, any value (30_encoding.md R97). -/
  | shl (x y : Reg)
  /-- `SNE Vx, Vy`, 9XY0. -/
  | sneVxVy (x y : Reg)
  /-- `LD I, nnn`, ANNN. -/
  | ldINnn (nnn : Addr12)
  /-- `JP V0, nnn`, BNNN. -/
  | jpV0 (nnn : Addr12)
  /-- `RND Vx, nn`, CXNN. -/
  | rnd (x : Reg) (nn : Byte)
  /-- `DRW Vx, Vy, n`, DXYN. -/
  | drw (x y : Reg) (n : BitVec 4)
  /-- `SKP Vx`, EX9E. -/
  | skp (x : Reg)
  /-- `SKNP Vx`, EXA1. -/
  | sknp (x : Reg)
  /-- `LD Vx, DT`, FX07. -/
  | ldVxDt (x : Reg)
  /-- `LD Vx, K`, FX0A. -/
  | ldVxK (x : Reg)
  /-- `LD DT, Vx`, FX15. -/
  | ldDtVx (x : Reg)
  /-- `LD ST, Vx`, FX18. -/
  | ldStVx (x : Reg)
  /-- `ADD I, Vx`, FX1E. -/
  | addIVx (x : Reg)
  /-- `LD F, Vx`, FX29. -/
  | ldFVx (x : Reg)
  /-- `LD B, Vx`, FX33. -/
  | ldBVx (x : Reg)
  /-- `LD [I], Vx`, FX55. -/
  | ldMemVx (x : Reg)
  /-- `LD Vx, [I]`, FX65. -/
  | ldVxMem (x : Reg)
  deriving DecidableEq, Repr

end Sys2Proof
end

