-- ==== Sys2Proof/Decode.lean ====
section
/-! DEFINITION. The decoder (30_encoding.md R90 to R96), total on any bytes and rejecting by name, and after it the encoder (R100) and the opcode map (R95). -/

namespace Sys2Proof

/-! ### Decode fields (30_encoding.md R91) -/

/-- The opcode class, `instr[15:12]`. -/
def fieldClass (w : Word) : BitVec 4 := w.extractLsb' 12 4

/-- `X`, `instr[11:8]`. -/
def fieldX (w : Word) : Reg := w.extractLsb' 8 4

/-- `Y`, `instr[7:4]`. -/
def fieldY (w : Word) : Reg := w.extractLsb' 4 4

/-- `N`, `instr[3:0]`. -/
def fieldN (w : Word) : BitVec 4 := w.extractLsb' 0 4

/-- `NN`, `instr[7:0]`. -/
def fieldNN (w : Word) : Byte := w.extractLsb' 0 8

/-- `NNN`, `instr[11:0]`. -/
def fieldNNN (w : Word) : Addr12 := w.extractLsb' 0 12

/-! ### Decoder -/

/-- Why bytes are no instruction. -/
inductive DecodeError where
  /-- Fewer than two bytes: an instruction is exactly two (30_encoding.md R90). Safe: no fetch meets it. -/
  | truncated
  /-- The word matches no row of the opcode map (30_encoding.md R96). Not a stop: the step executes it as
  the reported no-op of 40_step_cycle.md R125. -/
  | unknownOpcode (w : Word)
  deriving DecidableEq, Repr

/-- Class 0 selects by the whole word (30_encoding.md R94). -/
def decodeClass0 (w : Word) : Except DecodeError Instr :=
  if w = 0x00E0#16 then .ok .cls
  else if w = 0x00EE#16 then .ok .ret
  else .error (.unknownOpcode w)

/-- Class 8 selects by `N` (30_encoding.md R94, R95). -/
def decodeClass8 (w : Word) : Except DecodeError Instr :=
  if fieldN w = 0x0#4 then .ok (.ldVxVy (fieldX w) (fieldY w))
  else if fieldN w = 0x1#4 then .ok (.or (fieldX w) (fieldY w))
  else if fieldN w = 0x2#4 then .ok (.and (fieldX w) (fieldY w))
  else if fieldN w = 0x3#4 then .ok (.xor (fieldX w) (fieldY w))
  else if fieldN w = 0x4#4 then .ok (.addVxVy (fieldX w) (fieldY w))
  else if fieldN w = 0x5#4 then .ok (.sub (fieldX w) (fieldY w))
  else if fieldN w = 0x6#4 then .ok (.shr (fieldX w) (fieldY w))
  else if fieldN w = 0x7#4 then .ok (.subn (fieldX w) (fieldY w))
  else if fieldN w = 0xE#4 then .ok (.shl (fieldX w) (fieldY w))
  else .error (.unknownOpcode w)

/-- Class E selects by `NN` (30_encoding.md R94, R95). -/
def decodeClassE (w : Word) : Except DecodeError Instr :=
  if fieldNN w = 0x9E#8 then .ok (.skp (fieldX w))
  else if fieldNN w = 0xA1#8 then .ok (.sknp (fieldX w))
  else .error (.unknownOpcode w)

/-- Class F selects by `NN` (30_encoding.md R94, R95). -/
def decodeClassF (w : Word) : Except DecodeError Instr :=
  if fieldNN w = 0x07#8 then .ok (.ldVxDt (fieldX w))
  else if fieldNN w = 0x0A#8 then .ok (.ldVxK (fieldX w))
  else if fieldNN w = 0x15#8 then .ok (.ldDtVx (fieldX w))
  else if fieldNN w = 0x18#8 then .ok (.ldStVx (fieldX w))
  else if fieldNN w = 0x1E#8 then .ok (.addIVx (fieldX w))
  else if fieldNN w = 0x29#8 then .ok (.ldFVx (fieldX w))
  else if fieldNN w = 0x33#8 then .ok (.ldBVx (fieldX w))
  else if fieldNN w = 0x55#8 then .ok (.ldMemVx (fieldX w))
  else if fieldNN w = 0x65#8 then .ok (.ldVxMem (fieldX w))
  else .error (.unknownOpcode w)

/-- Decode one instruction word: the class first, then the group's sub-opcode (30_encoding.md R94;
40_step_cycle.md R123). Every word that matches no row of R95 is rejected by name (R96). -/
def decodeWord (w : Word) : Except DecodeError Instr :=
  if fieldClass w = 0x0#4 then decodeClass0 w
  else if fieldClass w = 0x1#4 then .ok (.jp (fieldNNN w))
  else if fieldClass w = 0x2#4 then .ok (.call (fieldNNN w))
  else if fieldClass w = 0x3#4 then .ok (.seVxNn (fieldX w) (fieldNN w))
  else if fieldClass w = 0x4#4 then .ok (.sneVxNn (fieldX w) (fieldNN w))
  else if fieldClass w = 0x5#4 then
    if fieldN w = 0x0#4 then .ok (.seVxVy (fieldX w) (fieldY w)) else .error (.unknownOpcode w)
  else if fieldClass w = 0x6#4 then .ok (.ldVxNn (fieldX w) (fieldNN w))
  else if fieldClass w = 0x7#4 then .ok (.addVxNn (fieldX w) (fieldNN w))
  else if fieldClass w = 0x8#4 then decodeClass8 w
  else if fieldClass w = 0x9#4 then
    if fieldN w = 0x0#4 then .ok (.sneVxVy (fieldX w) (fieldY w)) else .error (.unknownOpcode w)
  else if fieldClass w = 0xA#4 then .ok (.ldINnn (fieldNNN w))
  else if fieldClass w = 0xB#4 then .ok (.jpV0 (fieldNNN w))
  else if fieldClass w = 0xC#4 then .ok (.rnd (fieldX w) (fieldNN w))
  else if fieldClass w = 0xD#4 then .ok (.drw (fieldX w) (fieldY w) (fieldN w))
  else if fieldClass w = 0xE#4 then decodeClassE w
  else decodeClassF w

/-- The word whose more significant byte is `hi` (20_memory.md R63: the byte at the lower address). -/
def wordOfBytes (hi lo : Byte) : Word := hi ++ lo

/-- The byte at the lower address of a word's two bytes, `instr >> 8` (30_encoding.md R100). -/
def highByte (w : Word) : Byte := w.extractLsb' 8 8

/-- The byte at the higher address of a word's two bytes, `instr & 0xFF` (30_encoding.md R100). -/
def lowByte (w : Word) : Byte := w.extractLsb' 0 8

/-- Decode the instruction at the head of a byte sequence and give the bytes after it: two bytes,
the more significant first (30_encoding.md R90). -/
def decode : List Byte → Except DecodeError (Instr × List Byte)
  | hi :: lo :: rest =>
    match decodeWord (wordOfBytes hi lo) with
    | .ok i => .ok (i, rest)
    | .error e => .error e
  | _ => .error .truncated

/-- The word a table entry of `nbits` bits denotes: the bits above `nbits` are 0. -/
def tableWord (nbits w : Nat) : Word := BitVec.ofNat 16 (w % 2 ^ nbits)

/-- What the decoder reads from an instruction whose bits are `w`, numbered as spec/opcode_table.json
numbers them, laid out as its two bytes in big-endian order. -/
def decodeTableWord (nbits w : Nat) : Option Instr :=
  match decode [highByte (tableWord nbits w), lowByte (tableWord nbits w)] with
  | .ok (i, _) => some i
  | .error _ => none

/-! ### Encoder (30_encoding.md R95, R100) -/

/-- The `match` value of the instruction's row in 30_encoding.md R95. -/
def Instr.matchBits : Instr → Word
  | .cls => 0x00E0#16
  | .ret => 0x00EE#16
  | .jp _ => 0x1000#16
  | .call _ => 0x2000#16
  | .seVxNn _ _ => 0x3000#16
  | .sneVxNn _ _ => 0x4000#16
  | .seVxVy _ _ => 0x5000#16
  | .ldVxNn _ _ => 0x6000#16
  | .addVxNn _ _ => 0x7000#16
  | .ldVxVy _ _ => 0x8000#16
  | .or _ _ => 0x8001#16
  | .and _ _ => 0x8002#16
  | .xor _ _ => 0x8003#16
  | .addVxVy _ _ => 0x8004#16
  | .sub _ _ => 0x8005#16
  | .shr _ _ => 0x8006#16
  | .subn _ _ => 0x8007#16
  | .shl _ _ => 0x800E#16
  | .sneVxVy _ _ => 0x9000#16
  | .ldINnn _ => 0xA000#16
  | .jpV0 _ => 0xB000#16
  | .rnd _ _ => 0xC000#16
  | .drw _ _ _ => 0xD000#16
  | .skp _ => 0xE09E#16
  | .sknp _ => 0xE0A1#16
  | .ldVxDt _ => 0xF007#16
  | .ldVxK _ => 0xF00A#16
  | .ldDtVx _ => 0xF015#16
  | .ldStVx _ => 0xF018#16
  | .addIVx _ => 0xF01E#16
  | .ldFVx _ => 0xF029#16
  | .ldBVx _ => 0xF033#16
  | .ldMemVx _ => 0xF055#16
  | .ldVxMem _ => 0xF065#16

/-- The fixed-bits mask of the instruction's format (30_encoding.md R92, R95). -/
def Instr.maskBits : Instr → Word
  | .cls | .ret => 0xFFFF#16
  | .jp _ | .call _ | .ldINnn _ | .jpV0 _ => 0xF000#16
  | .seVxNn _ _ | .sneVxNn _ _ | .ldVxNn _ _ | .addVxNn _ _ | .rnd _ _ => 0xF000#16
  | .seVxVy _ _ | .sneVxVy _ _ | .ldVxVy _ _ => 0xF00F#16
  | .or _ _ | .and _ _ | .xor _ _ | .addVxVy _ _ | .sub _ _ => 0xF00F#16
  | .shr _ _ | .subn _ _ | .shl _ _ => 0xF00F#16
  | .drw _ _ _ => 0xF000#16
  | .skp _ | .sknp _ => 0xF0FF#16
  | .ldVxDt _ | .ldVxK _ | .ldDtVx _ | .ldStVx _ | .addIVx _ => 0xF0FF#16
  | .ldFVx _ | .ldBVx _ | .ldMemVx _ | .ldVxMem _ => 0xF0FF#16

/-- `X << 8` in a word. -/
def placeX (x : Reg) : Word := x.setWidth 16 <<< 8

/-- `Y << 4` in a word. -/
def placeY (y : Reg) : Word := y.setWidth 16 <<< 4

/-- The operand fields of an instruction, each in its place (30_encoding.md R92, R100). -/
def Instr.operandBits : Instr → Word
  | .cls | .ret => 0#16
  | .jp nnn | .call nnn | .ldINnn nnn | .jpV0 nnn => nnn.setWidth 16
  | .seVxNn x nn | .sneVxNn x nn | .ldVxNn x nn | .addVxNn x nn | .rnd x nn => placeX x ||| nn.setWidth 16
  | .seVxVy x y | .sneVxVy x y | .ldVxVy x y => placeX x ||| placeY y
  | .or x y | .and x y | .xor x y | .addVxVy x y | .sub x y => placeX x ||| placeY y
  | .shr x y | .subn x y | .shl x y => placeX x ||| placeY y
  | .drw x y n => placeX x ||| placeY y ||| n.setWidth 16
  | .skp x | .sknp x => placeX x
  | .ldVxDt x | .ldVxK x | .ldDtVx x | .ldStVx x | .addIVx x => placeX x
  | .ldFVx x | .ldBVx x | .ldMemVx x | .ldVxMem x => placeX x

/-- The instruction word: the row's `match` value with the operand fields or-ed in (30_encoding.md R100). -/
def encode (i : Instr) : Word := i.matchBits ||| i.operandBits

/-- The two program bytes of an instruction, the more significant first (30_encoding.md R100). -/
def encodeBytes (i : Instr) : List Byte := [highByte (encode i), lowByte (encode i)]

/-! ### The opcode map as data (30_encoding.md R95) -/

/-- One row of the opcode map: a word `w` is the row's instruction when `w & mask = matchBits`. -/
structure OpcodeRow where
  matchBits : Word
  mask : Word
  deriving DecidableEq, Repr

/-- Rows of classes 0 to 7. -/
def opcodeRowsLow : List OpcodeRow :=
  [⟨0x00E0#16, 0xFFFF#16⟩, ⟨0x00EE#16, 0xFFFF#16⟩, ⟨0x1000#16, 0xF000#16⟩, ⟨0x2000#16, 0xF000#16⟩,
   ⟨0x3000#16, 0xF000#16⟩, ⟨0x4000#16, 0xF000#16⟩, ⟨0x5000#16, 0xF00F#16⟩, ⟨0x6000#16, 0xF000#16⟩,
   ⟨0x7000#16, 0xF000#16⟩]

/-- Rows of classes 8 to D. -/
def opcodeRowsMid : List OpcodeRow :=
  [⟨0x8000#16, 0xF00F#16⟩, ⟨0x8001#16, 0xF00F#16⟩, ⟨0x8002#16, 0xF00F#16⟩, ⟨0x8003#16, 0xF00F#16⟩,
   ⟨0x8004#16, 0xF00F#16⟩, ⟨0x8005#16, 0xF00F#16⟩, ⟨0x8006#16, 0xF00F#16⟩, ⟨0x8007#16, 0xF00F#16⟩,
   ⟨0x800E#16, 0xF00F#16⟩, ⟨0x9000#16, 0xF00F#16⟩, ⟨0xA000#16, 0xF000#16⟩, ⟨0xB000#16, 0xF000#16⟩,
   ⟨0xC000#16, 0xF000#16⟩, ⟨0xD000#16, 0xF000#16⟩]

/-- Rows of classes E and F. -/
def opcodeRowsHigh : List OpcodeRow :=
  [⟨0xE09E#16, 0xF0FF#16⟩, ⟨0xE0A1#16, 0xF0FF#16⟩, ⟨0xF007#16, 0xF0FF#16⟩, ⟨0xF00A#16, 0xF0FF#16⟩,
   ⟨0xF015#16, 0xF0FF#16⟩, ⟨0xF018#16, 0xF0FF#16⟩, ⟨0xF01E#16, 0xF0FF#16⟩, ⟨0xF029#16, 0xF0FF#16⟩,
   ⟨0xF033#16, 0xF0FF#16⟩, ⟨0xF055#16, 0xF0FF#16⟩, ⟨0xF065#16, 0xF0FF#16⟩]

/-- The 34 match/mask rows of 30_encoding.md R95, the whole instruction set. -/
def opcodeMap : List OpcodeRow := opcodeRowsLow ++ opcodeRowsMid ++ opcodeRowsHigh

/-- `w` is the instruction of `row` (30_encoding.md R95). -/
def OpcodeRow.matchesWord (row : OpcodeRow) (w : Word) : Bool := w &&& row.mask = row.matchBits

end Sys2Proof
end

