-- ==== Sys2Proof/Config.lean ====
section
/-! DEFINITION. The fixed parameters of the machine (00_scope.md R4) and its one free value, the random byte of CXNN. The font bytes stand in Machine/Ops.lean. -/

namespace Sys2Proof.Config

/-- `ADDR_MAX`: the highest memory address (00_scope.md R4, 20_memory.md R60). -/
abbrev addrMax : Nat := 0xFFF

/-- `FONT_SIZE`: the font region is 0x000 to 0x04F (00_scope.md R4, 20_memory.md R61). -/
abbrev fontSize : Nat := 80

/-- `PROG_BASE`: where `loadRom` copies the program and where the first fetch is (00_scope.md R4). -/
abbrev progBase : Nat := 0x200

/-- `ROM_MAX`: the longest program, 4096 minus 0x200 bytes (00_scope.md R4). -/
abbrev romMax : Nat := 3584

/-- `FB_W`: columns of the framebuffer (00_scope.md R4). -/
abbrev fbWidth : Nat := 64

/-- `FB_H`: rows of the framebuffer (00_scope.md R4). -/
abbrev fbHeight : Nat := 32

/-- `STACK_DEPTH`: entries of the call stack (00_scope.md R4). -/
abbrev stackDepth : Nat := 16

/-- FREE VALUE. The random byte `rnd` that the `n`-th CXNN of a run receives: "a fresh, unconstrained
value at every step that executes CXNN" (10_state.md R32, 42_alu.md R172). It has no body, so nothing
can be proved of any of its values; two draws need not differ (log 5). -/
opaque rnd : Nat → Byte

end Sys2Proof.Config
end

