-- ==== Sys2Proof/Machine/State.lean ====
section
/-! DEFINITION. The machine's state as plain data (10_state.md R20 to R35), the reasons a step can stop, and the state right after `initialize`. -/

namespace Sys2Proof.Machine

/-- `PHASE`, the run-control register (10_state.md R29). -/
inductive Phase where
  /-- After `initialize`, no program loaded. -/
  | init
  /-- A program was loaded; steps execute. -/
  | run
  /-- A fault was raised; nothing executes. -/
  | fault
  deriving DecidableEq, Repr

/-- The causes of a fault (60_exceptions.md R251). Raising one is a NEXT state with `PHASE = FAULT`. -/
inductive FaultCause where
  /-- Fetch from an odd `pc`, or one below 0x200 or above 0xFFE. -/
  | pcInvalid
  /-- An effective address above 0xFFF. -/
  | memOob
  /-- A store that would write the font region. -/
  | fontWrite
  /-- A set sprite bit outside the 64 by 32 grid. -/
  | fbOob
  /-- A key index above 15. -/
  | keyOob
  /-- A call with 16 entries in use. -/
  | stackOverflow
  /-- A return with no entry in use. -/
  | stackUnderflow
  deriving DecidableEq, Repr

/-- What `raise Fault(cause, info)` carries (00_scope.md R9). -/
structure Trap where
  cause : FaultCause
  /-- The offending value, a natural number. -/
  info : Nat
  deriving DecidableEq, Repr

/-- Ways a step could leave the machine with no state at all: none. The seven faults of this hardware
(60_exceptions.md R251) are entered as R256 describes, `PHASE <- FAULT` with `FCAUSE` and `FADDR`
written, so each is a next state and nothing raises a `Fault`. Safe: no behaviour is hidden here (log 1). -/
inductive Fault where
  deriving DecidableEq, Repr

/-- Operations the spec refuses: "the model gives them no move". -/
inductive Refusal where
  /-- `exec` raises it for an instruction that has no meaning yet. Safe. No arm of this model does. -/
  | notModelled (mnemonic : String)
  /-- `step` raises it in phase `INIT`: no program is loaded (40_step_cycle.md R129). Safe. -/
  | stepBeforeLoad
  /-- `loadRom` raises it outside phase `INIT` (70_reset_and_hazards.md R292). Safe. -/
  | loadOutsideInit
  /-- `setKey` raises it for an index above 15 (10_state.md R33). Safe. -/
  | keyIndexOutOfDomain
  deriving DecidableEq, Repr

/-- Memory as (address, byte) pairs; an address with no pair reads as its reset contents
(`Memory.unlisted` in Machine/Ops.lean). `Memory.wf` is the canonical form. -/
abbrev Memory := List Host.Cell

/-- The framebuffer: bit `k` is the cell `FB[k]`, `k = x + 64 * y` (10_state.md R26; log 15). -/
abbrev Framebuffer := BitVec 2048

/-- All state of the machine (10_state.md R35), and three fields of the model's own at the end. -/
structure State where
  /-- `V[0]` to `V[15]` (R20). -/
  v : Vector Byte 16
  /-- The index register `I` (R22). -/
  idx : Word
  /-- The program counter (R23). -/
  pc : Word
  /-- The stack pointer: entries in use, 0 to 16 (R24). -/
  sp : Fin 17
  /-- `STK[0]` to `STK[15]` (R24). -/
  stk : Vector Word 16
  /-- The delay timer `DT` (R25). -/
  dt : Byte
  /-- The sound timer `ST` (R25). -/
  st : Byte
  /-- `FB[0]` to `FB[2047]` (R26). -/
  fb : Framebuffer
  /-- `KEY[0]` to `KEY[15]`, true is pressed (R27). -/
  keys : Vector Bool 16
  /-- `MEM[0x000]` to `MEM[0xFFF]` (R28). -/
  mem : Memory
  /-- `PHASE` (R29). -/
  phase : Phase
  /-- `FCAUSE` (R30). -/
  fcause : BitVec 4
  /-- `FADDR` (R30). -/
  faddr : BitVec 32
  /-- The output `redraw` of the last step (R32). The model's own field (log 4). -/
  redraw : Bool
  /-- The outputs `diag` and `diag_instr` of the last step: `some w` is `diag = 1` with
  `diag_instr = w` (R32). The model's own field (log 4). -/
  diag : Option Word
  /-- How many random bytes have been drawn; the next is `Config.rnd draws`. The model's own field (log 5). -/
  draws : Nat
  deriving DecidableEq, Repr

/-- The machine right after `initialize` (10_state.md R34, 70_reset_and_hazards.md R291), with nothing
listed in memory: the default font of R28 below 0x050 and zeros above (log 6). -/
def State.reset : State where
  v := Vector.replicate 16 0#8
  idx := 0#16
  pc := 0x200#16
  sp := 0
  stk := Vector.replicate 16 0#16
  dt := 0#8
  st := 0#8
  fb := 0#2048
  keys := Vector.replicate 16 false
  mem := []
  phase := .init
  fcause := 0#4
  faddr := 0#32
  redraw := false
  diag := none
  draws := 0

/-- The outcome of a meaning or a step. -/
abbrev Result := Host.Outcome State Fault Refusal

end Sys2Proof.Machine
end

