-- ==== Sys2Proof/Machine/Ops.lean ====
section
/-! DEFINITION. The named operations over memory, registers, stack and pc, and raising a fault, the one exception entry of this hardware. -/

namespace Sys2Proof.Machine

/-! ### Faults (60_exceptions.md R251, R256) -/

/-- The cause code `FCAUSE` receives (60_exceptions.md R251). -/
def FaultCause.code : FaultCause → BitVec 4
  | .pcInvalid => 1#4
  | .memOob => 2#4
  | .fontWrite => 3#4
  | .fbOob => 4#4
  | .keyOob => 5#4
  | .stackOverflow => 6#4
  | .stackUnderflow => 7#4

/-- `raise Fault(cause, info)`: exactly the three writes of 60_exceptions.md R256. `pc` keeps the
address of the faulting instruction. Applied to the state before the instruction, so that no part of
its effect is left (R257). -/
def raiseFault (t : Trap) (s : State) : State :=
  { s with phase := .fault, fcause := t.cause.code, faddr := BitVec.ofNat 32 t.info }

/-- The end of an instruction whose checks gave `r`: its new state, or the fault raised in the old one. -/
def conclude (s : State) (r : Except Trap State) : Result :=
  match r with
  | .ok t => .next t
  | .error t => .next (raiseFault t s)

/-! ### Memory (20_memory.md R60 to R69) -/

/-- The font bytes of glyphs 0 to 7 (10_state.md R28, the default of the parameter `FONT`; log 6). -/
def fontLow : List Byte :=
  [0xF0#8, 0x90#8, 0x90#8, 0x90#8, 0xF0#8, 0x20#8, 0x60#8, 0x20#8, 0x20#8, 0x70#8,
   0xF0#8, 0x10#8, 0xF0#8, 0x80#8, 0xF0#8, 0xF0#8, 0x10#8, 0xF0#8, 0x10#8, 0xF0#8,
   0x90#8, 0x90#8, 0xF0#8, 0x10#8, 0x10#8, 0xF0#8, 0x80#8, 0xF0#8, 0x10#8, 0xF0#8,
   0xF0#8, 0x80#8, 0xF0#8, 0x90#8, 0xF0#8, 0xF0#8, 0x10#8, 0x20#8, 0x40#8, 0x40#8]

/-- The font bytes of glyphs 8 to F (10_state.md R28). -/
def fontHigh : List Byte :=
  [0xF0#8, 0x90#8, 0xF0#8, 0x90#8, 0xF0#8, 0xF0#8, 0x90#8, 0xF0#8, 0x10#8, 0xF0#8,
   0xF0#8, 0x90#8, 0xF0#8, 0x90#8, 0x90#8, 0xE0#8, 0x90#8, 0xE0#8, 0x90#8, 0xE0#8,
   0xF0#8, 0x80#8, 0x80#8, 0x80#8, 0xF0#8, 0xE0#8, 0x90#8, 0x90#8, 0x90#8, 0xE0#8,
   0xF0#8, 0x80#8, 0xF0#8, 0x80#8, 0xF0#8, 0xF0#8, 0x80#8, 0xF0#8, 0x80#8, 0x80#8]

/-- The default `FONT`, 80 bytes, glyph `d` at `5 * d` (10_state.md R28). A machine with another font is
a state whose memory lists the bytes that differ (log 6). -/
def defaultFont : List Byte := fontLow ++ fontHigh

/-- What an address with no pair in the list reads as: its contents after `initialize` (10_state.md
R34), the font below 0x050 and 0 above. -/
def Memory.unlisted (a : Nat) : Byte :=
  if a < Config.fontSize then defaultFont.getD a 0#8 else 0#8

/-- The byte at an address: its pair, or what an unlisted address reads as. -/
def Memory.read (m : Memory) (a : Nat) : Byte :=
  match m with
  | [] => Memory.unlisted a
  | (b, v) :: rest => if b = a then v else Memory.read rest a

/-- The pairs of consecutive bytes from address `a`, leaving out a byte an unlisted address reads as. -/
def Memory.cells (a : Nat) : List Byte → Memory
  | [] => []
  | b :: bs =>
    if b = Memory.unlisted a then Memory.cells (a + 1) bs else (a, b) :: Memory.cells (a + 1) bs

/-- Put consecutive bytes from address `a` on, with no check, keeping the canonical form. -/
def Memory.load (m : Memory) (a : Nat) (bytes : List Byte) : Memory :=
  m.filter (fun c => c.1 < a) ++ Memory.cells a bytes ++ m.filter (fun c => a + bytes.length ≤ c.1)

/-- Put one byte, with no check, keeping the canonical form. -/
def Memory.write (m : Memory) (a : Nat) (b : Byte) : Memory := m.load a [b]

/-- The canonical form from address `lo` on. -/
def Memory.wfFrom (lo : Nat) : Memory → Bool
  | [] => true
  | (a, b) :: rest =>
    lo ≤ a && a ≤ Config.addrMax && b != Memory.unlisted a && Memory.wfFrom (a + 1) rest

/-- The canonical form: addresses of the 4096-byte space, strictly rising, and no pair that repeats what
an unlisted address reads as. -/
def Memory.wf (m : Memory) : Bool := Memory.wfFrom 0 m

/-- `MemRead(addr, 1)`: an address above 0xFFF faults, every other address may be read (20_memory.md R66). -/
def memRead (m : Memory) (a : Nat) : Except Trap Byte :=
  if a > Config.addrMax then .error ⟨.memOob, a⟩ else .ok (m.read a)

/-- `MemWrite(addr, 1, b)`: an address above 0xFFF or in the font region faults (20_memory.md R67). -/
def memWrite (m : Memory) (a : Nat) (b : Byte) : Except Trap Memory :=
  if a > Config.addrMax then .error ⟨.memOob, a⟩
  else if a < Config.fontSize then .error ⟨.fontWrite, a⟩
  else .ok (m.write a b)

/-- `MemRead` at `n` ascending addresses from `a`; the first that faults ends it (20_memory.md R64, R68). -/
def memReadRange (m : Memory) (a : Nat) : Nat → Except Trap (List Byte)
  | 0 => .ok []
  | n + 1 =>
    match memRead m a with
    | .error t => .error t
    | .ok b =>
      match memReadRange m (a + 1) n with
      | .error t => .error t
      | .ok bs => .ok (b :: bs)

/-- `MemWrite` of bytes at ascending addresses from `a`; the first that faults ends it and the memory
written so far is dropped, so a faulting store writes nothing (20_memory.md R64, R67, R68). -/
def memWriteRange (m : Memory) (a : Nat) : List Byte → Except Trap Memory
  | [] => .ok m
  | b :: bs =>
    match memWrite m a b with
    | .error t => .error t
    | .ok m' => memWriteRange m' (a + 1) bs

/-! ### Registers (10_state.md R20 to R22) -/

/-- The index of the flag register `VF` (10_state.md R21). -/
abbrev vf : Reg := 15#4

/-- Read `V[x]`. -/
def State.reg (s : State) (x : Reg) : Byte := s.v[x.toNat]'x.isLt

/-- `V[x] <- b`. No register is hardwired (10_state.md R20). -/
def State.setReg (s : State) (x : Reg) (b : Byte) : State := { s with v := s.v.set x.toNat b x.isLt }

/-- `I <- w`. -/
def State.setIdx (s : State) (w : Word) : State := { s with idx := w }

/-- `V[0]` to `V[x]`, the registers FX55 stores (43_index_memory.md R194). -/
def State.regsUpTo (s : State) (x : Reg) : List Byte := s.v.toList.take (x.toNat + 1)

/-- `V[k] <- bytes[0]`, `V[k+1] <- bytes[1]` and so on (43_index_memory.md R195). -/
def loadRegs (v : Vector Byte 16) (k : Nat) : List Byte → Vector Byte 16
  | [] => v
  | b :: bs => loadRegs (v.setIfInBounds k b) (k + 1) bs

/-! ### Program counter (40_step_cycle.md R124, 41_control_flow.md R140) -/

/-- `pc <- target`. -/
def State.setPc (s : State) (target : Word) : State := { s with pc := target }

/-- `pc <- pc + 2`, the default advance. -/
def State.advance (s : State) : State := { s with pc := s.pc + 2#16 }

/-- `pc <- pc + 4` if the condition holds, else `pc <- pc + 2`. -/
def State.skipIf (s : State) (cond : Bool) : State :=
  { s with pc := if cond then s.pc + 4#16 else s.pc + 2#16 }

/-! ### Call stack (10_state.md R24) -/

/-- `Push(w)`: the slot `STK[sp]`, then `sp + 1`; a full stack faults. -/
def State.push (s : State) (w : Word) : Except Trap State :=
  if h : s.sp.val < Config.stackDepth then
    .ok { s with stk := s.stk.set s.sp.val w h, sp := ⟨s.sp.val + 1, Nat.succ_lt_succ h⟩ }
  else .error ⟨.stackOverflow, s.sp.val⟩

/-- The value of slot `k`, 0 for `k` above 15 (no slot). -/
def State.slot (s : State) (k : Nat) : Word := s.stk.toList.getD k 0#16

/-- `Pop()`: `sp - 1`, then the slot `STK[sp]`, which keeps its value; an empty stack faults. -/
def State.pop (s : State) : Except Trap (Word × State) :=
  if s.sp.val = 0 then .error ⟨.stackUnderflow, s.sp.val⟩
  else .ok (s.slot (s.sp.val - 1), { s with sp := ⟨s.sp.val - 1, Nat.lt_of_le_of_lt (Nat.sub_le _ _) s.sp.isLt⟩ })

/-! ### Timers, keys, framebuffer (10_state.md R25 to R27) -/

/-- `DT <- b`. -/
def State.setDt (s : State) (b : Byte) : State := { s with dt := b }

/-- `ST <- b`. -/
def State.setSt (s : State) (b : Byte) : State := { s with st := b }

/-- The key flag `KEY[k]`; `k` above 15 names no flag. -/
def State.key (s : State) (k : Nat) : Bool := s.keys.toList.getD k false

/-- The lowest-numbered key that is down (45_keys_timers.md R232). -/
def State.firstKey (s : State) : Option Nat := s.keys.toList.findIdx? (fun p => p)

/-- The framebuffer cell `FB[k]`. -/
def State.cell (s : State) (k : Nat) : Bool := s.fb.getLsbD k

/-- `FB[k] <- FB[k] ^ 1`. -/
def flipCell (fb : Framebuffer) (k : Nat) : Framebuffer := fb ^^^ BitVec.twoPow 2048 k

end Sys2Proof.Machine
end

