-- ==== Sys2Proof/Machine/Cycle.lean ====
section
/-! DEFINITION. The parts of a step around the instruction: outputs cleared, fetch, the unknown opcode, the timer tick (40_step_cycle.md), and placing one instruction where the next fetch is. -/

namespace Sys2Proof.Machine

/-- `redraw <- 0 ; diag <- 0`, the first line of 40_step_cycle.md R121; a step in phase FAULT answers the
same (R129). -/
def State.clearOutputs (s : State) : State := { s with redraw := false, diag := none }

/-- `PcValid(pc)`: even and in 0x200 to 0xFFE (40_step_cycle.md R122). -/
def pcValid (pc : Word) : Bool := pc.toNat % 2 = 0 && Config.progBase ≤ pc.toNat && pc.toNat ≤ 0xFFE

/-- The word at `pc`, big-endian (40_step_cycle.md R122). -/
def State.wordAtPc (s : State) : Word :=
  wordOfBytes (s.mem.read s.pc.toNat) (s.mem.read (s.pc.toNat + 1))

/-- Fetch: an invalid `pc` faults and nothing is read (40_step_cycle.md R122). -/
def State.fetch (s : State) : Except Trap Word :=
  if pcValid s.pc then .ok s.wordAtPc else .error ⟨.pcInvalid, s.pc.toNat⟩

/-- Unknown opcode: the word is reported, `pc` advances, nothing else (40_step_cycle.md R125; log 7). -/
def execUnknown (w : Word) (s : State) : State := { s with diag := some w }.advance

/-- A timer loses 1 if it is above 0 (40_step_cycle.md R126). -/
def countDown (b : Byte) : Byte := if b.toNat > 0 then b - 1#8 else b

/-- The timer tick (40_step_cycle.md R126). -/
def State.tick (s : State) : State := { s with dt := countDown s.dt, st := countDown s.st }

/-- The end of a step: a completed step ticks, a faulted one does not (40_step_cycle.md R126, R128). -/
def State.endStep (s : State) : State := if s.phase = .fault then s else s.tick

/-- Put the instruction word `w` where the next step fetches, in a machine that runs: its two bytes at
`pc`, phase RUN, and `pc` at 0x200 if it was no valid fetch address (log 3). -/
def State.placeInstruction (s : State) (w : Word) : State :=
  let pc := if pcValid s.pc then s.pc else BitVec.ofNat 16 Config.progBase
  { s with pc := pc, mem := s.mem.load pc.toNat [highByte w, lowByte w], phase := .run }

end Sys2Proof.Machine
end

