-- ==== Sys2Proof/Machine/Flags.lean ====
section
/-! DEFINITION. Every flag value written to VF (10_state.md R21) and the shared order of a flag-writing arithmetic instruction (42_alu.md R160). -/

namespace Sys2Proof.Machine

/-- A flag as the byte 1 or 0. -/
def flagByte (b : Bool) : Byte := if b then 1#8 else 0#8

/-- Carry of 8XY4: the true sum exceeds 255 (42_alu.md R167). -/
def carryFlag (a b : Byte) : Byte := flagByte (a.toNat + b.toNat > 255)

/-- Not-borrow of `a - b`: 0 if `b > a`, else 1 (42_alu.md R168, R170). -/
def notBorrowFlag (a b : Byte) : Byte := flagByte (!(b.toNat > a.toNat))

/-- The bit 8XY6 shifts out (42_alu.md R169). -/
def shiftRightFlag (a : Byte) : Byte := a &&& 1#8

/-- The bit 8XYE shifts out (42_alu.md R171). -/
def shiftLeftFlag (a : Byte) : Byte := a >>> 7

/-- Collision of DXYN (44_display.md R212). -/
def collisionFlag (hit : Bool) : Byte := flagByte hit

/-- Flag first, result second, the operands read again after the flag write (42_alu.md R160, 00_scope.md
R6): it matters when `x` or `y` is 15 (log 8). -/
def flagThenResult (x y : Reg) (flag result : Byte → Byte → Byte) (s : State) : State :=
  let s1 := s.setReg vf (flag (s.reg x) (s.reg y))
  (s1.setReg x (result (s1.reg x) (s1.reg y))).advance

end Sys2Proof.Machine
end

