-- ==== Sys2Proof/Machine/Alu.lean ====
section
/-! DEFINITION. Register load, arithmetic, logic, shift and random (42_alu.md). All arithmetic is modulo 256 (R160). -/

namespace Sys2Proof.Machine

/-- LD Vx, nn, 6XNN (42_alu.md R161). -/
def execLdVxNn (x : Reg) (nn : Byte) (s : State) : Result := .next (s.setReg x nn).advance

/-- ADD Vx, nn, 7XNN (42_alu.md R162): VF is not written. -/
def execAddVxNn (x : Reg) (nn : Byte) (s : State) : Result := .next (s.setReg x (s.reg x + nn)).advance

/-- LD Vx, Vy, 8XY0 (42_alu.md R163). -/
def execLdVxVy (x y : Reg) (s : State) : Result := .next (s.setReg x (s.reg y)).advance

/-- OR Vx, Vy, 8XY1 (42_alu.md R164): VF is not touched. -/
def execOr (x y : Reg) (s : State) : Result := .next (s.setReg x (s.reg x ||| s.reg y)).advance

/-- AND Vx, Vy, 8XY2 (42_alu.md R165): VF is not touched. -/
def execAnd (x y : Reg) (s : State) : Result := .next (s.setReg x (s.reg x &&& s.reg y)).advance

/-- XOR Vx, Vy, 8XY3 (42_alu.md R166): VF is not touched. -/
def execXor (x y : Reg) (s : State) : Result := .next (s.setReg x (s.reg x ^^^ s.reg y)).advance

/-- ADD Vx, Vy, 8XY4 (42_alu.md R167). -/
def execAddVxVy (x y : Reg) (s : State) : Result :=
  .next (flagThenResult x y carryFlag (fun a b => a + b) s)

/-- SUB Vx, Vy, 8XY5 (42_alu.md R168): `V[X] - V[Y]`. -/
def execSub (x y : Reg) (s : State) : Result :=
  .next (flagThenResult x y notBorrowFlag (fun a b => a - b) s)

/-- SHR Vx, 8XY6 (42_alu.md R169): in place, `y` is ignored (30_encoding.md R97). -/
def execShr (x _y : Reg) (s : State) : Result :=
  .next (flagThenResult x x (fun a _ => shiftRightFlag a) (fun a _ => a >>> 1) s)

/-- SUBN Vx, Vy, 8XY7 (42_alu.md R170): `V[Y] - V[X]`. -/
def execSubn (x y : Reg) (s : State) : Result :=
  .next (flagThenResult x y (fun a b => notBorrowFlag b a) (fun a b => b - a) s)

/-- SHL Vx, 8XYE (42_alu.md R171): in place, `y` is ignored (30_encoding.md R97). -/
def execShl (x _y : Reg) (s : State) : Result :=
  .next (flagThenResult x x (fun a _ => shiftLeftFlag a) (fun a _ => a <<< 1) s)

/-- The random byte of this step, a free value, and the state that has drawn it (10_state.md R32; log 5). -/
def State.draw (s : State) : Byte × State := (Config.rnd s.draws, { s with draws := s.draws + 1 })

/-- RND Vx, nn, CXNN (42_alu.md R172): a fresh free byte, masked. -/
def execRnd (x : Reg) (nn : Byte) (s : State) : Result :=
  .next (s.draw.2.setReg x (s.draw.1 &&& nn)).advance

end Sys2Proof.Machine
end

