-- ==== Sys2Proof/Machine/Operands.lean ====
section
/-! DEFINITION. The operand forms: immediates, the effective address, BCD digits, the font glyph address, the key operand, and the pixels of a sprite. -/

namespace Sys2Proof.Machine

/-- `NNN` zero-extended to the 16 bits of `pc` or `I` (30_encoding.md R93). -/
def addrOperand (nnn : Addr12) : Word := nnn.setWidth 16

/-- The effective address `I + k`, a natural number, never wrapped or masked (20_memory.md R68). -/
def State.effAddr (s : State) (k : Nat) : Nat := s.idx.toNat + k

/-- `V[X] * 5`, the whole byte (43_index_memory.md R192). -/
def glyphAddr (b : Byte) : Word := b.setWidth 16 * 5#16

/-- Hundreds, tens and ones of a byte (43_index_memory.md R193). -/
def bcdDigits (b : Byte) : List Byte :=
  [BitVec.ofNat 8 (b.toNat / 100), BitVec.ofNat 8 (b.toNat / 10 % 10), BitVec.ofNat 8 (b.toNat % 10)]

/-- The key flag a byte selects; the whole byte is the index and an index above 15 faults (45_keys_timers.md R230). -/
def State.keyOperand (s : State) (b : Byte) : Except Trap Bool :=
  if b.toNat > 15 then .error ⟨.keyOob, b.toNat⟩ else .ok (s.key b.toNat)

/-! ### Sprites (44_display.md R212 to R214) -/

/-- A target in the framebuffer: its column and its row, natural numbers, not reduced. -/
structure Pixel where
  col : Nat
  row : Nat
  deriving DecidableEq, Repr

/-- Is the bit of column `c` of a row byte set: bit `7 - c`, the most significant is the leftmost (44_display.md R213; log 10). -/
def spriteBit (b : Byte) (c : Nat) : Bool := b.getLsbD (7 - c)

/-- The targets of the set bits of one row byte, columns ascending; a clear bit has no target. -/
def rowPixels (x0 y : Nat) (b : Byte) : List Pixel :=
  ((List.range 8).filter (fun c => spriteBit b c)).map (fun c => ⟨x0 + c, y⟩)

/-- The targets of a sprite's set bits, rows ascending and then columns ascending. -/
def spritePixels (x0 y0 : Nat) : List Byte → List Pixel
  | [] => []
  | b :: bs => rowPixels x0 y0 b ++ spritePixels x0 (y0 + 1) bs

/-- The target lies outside the 64 by 32 grid (44_display.md R214). -/
def Pixel.outside (p : Pixel) : Bool := p.col > Config.fbWidth - 1 || p.row > Config.fbHeight - 1

/-- The framebuffer index of a target (44_display.md R210). -/
def Pixel.index (p : Pixel) : Nat := p.col + p.row * Config.fbWidth

/-- What `FADDR` records of a target outside the grid, `(row << 16) | column` (44_display.md R214). -/
def Pixel.faultInfo (p : Pixel) : Nat := (p.row <<< 16) ||| p.col

/-- The first target outside the grid faults (44_display.md R212, R214). -/
def checkPixels (ps : List Pixel) : Except Trap Unit :=
  match ps.find? (fun p => p.outside) with
  | some p => .error ⟨.fbOob, p.faultInfo⟩
  | none => .ok ()

/-- Exclusive-or the targets into the framebuffer one after the other; the flag turns true at a cell that was 1. -/
def drawPixels (fb : Framebuffer) (hit : Bool) : List Pixel → Framebuffer × Bool
  | [] => (fb, hit)
  | p :: ps => drawPixels (flipCell fb p.index) (hit || fb.getLsbD p.index) ps

end Sys2Proof.Machine
end

