-- ==== Sys2Proof/Machine/Control.lean ====
section
/-! DEFINITION. Control transfer: return, jump, call, indexed jump, skips on registers (41_control_flow.md). -/

namespace Sys2Proof.Machine

/-- RET, 00EE (41_control_flow.md R141): the popped call address plus 2. -/
def execRet (s : State) : Result :=
  match s.pop with
  | .ok (w, t) => .next (t.setPc (w + 2#16))
  | .error t => .next (raiseFault t s)

/-- JP nnn, 1NNN (41_control_flow.md R142). The target is not checked here. -/
def execJp (nnn : Addr12) (s : State) : Result := .next (s.setPc (addrOperand nnn))

/-- CALL nnn, 2NNN (41_control_flow.md R143): the call's own address is pushed. -/
def execCall (nnn : Addr12) (s : State) : Result :=
  match s.push s.pc with
  | .ok t => .next (t.setPc (addrOperand nnn))
  | .error t => .next (raiseFault t s)

/-- SE Vx, nn, 3XNN (41_control_flow.md R144). -/
def execSeVxNn (x : Reg) (nn : Byte) (s : State) : Result := .next (s.skipIf (s.reg x == nn))

/-- SNE Vx, nn, 4XNN (41_control_flow.md R145). -/
def execSneVxNn (x : Reg) (nn : Byte) (s : State) : Result := .next (s.skipIf (s.reg x != nn))

/-- SE Vx, Vy, 5XY0 (41_control_flow.md R146). -/
def execSeVxVy (x y : Reg) (s : State) : Result := .next (s.skipIf (s.reg x == s.reg y))

/-- SNE Vx, Vy, 9XY0 (41_control_flow.md R147). -/
def execSneVxVy (x y : Reg) (s : State) : Result := .next (s.skipIf (s.reg x != s.reg y))

/-- JP V0, nnn, BNNN (41_control_flow.md R148): the sum is not reduced modulo 4096. -/
def execJpV0 (nnn : Addr12) (s : State) : Result :=
  .next (s.setPc (addrOperand nnn + (s.reg 0#4).setWidth 16))

end Sys2Proof.Machine
end

