-- ==== Sys2Proof/Machine/Display.lean ====
section
/-! DEFINITION. Clear screen and sprite draw (44_display.md). -/

namespace Sys2Proof.Machine

/-- CLS, 00E0 (44_display.md R211): all cells 0, redraw signalled, VF unchanged. -/
def execCls (s : State) : Result := .next { s with fb := 0#2048, redraw := true }.advance

/-- The effect of a sprite whose rows were read and whose targets all lie inside: the cells toggled, VF
the collision, redraw signalled (44_display.md R212). -/
def State.drawSprite (s : State) (ps : List Pixel) : State :=
  let d := drawPixels s.fb false ps
  ({ s with fb := d.1, redraw := true }.setReg vf (collisionFlag d.2)).advance

/-- DRW Vx, Vy, n, DXYN (44_display.md R212): both coordinates are read before VF is written (log 9),
the rows are read first and then the targets are checked. -/
def execDrw (x y : Reg) (n : BitVec 4) (s : State) : Result :=
  match memReadRange s.mem (s.effAddr 0) n.toNat with
  | .error t => .next (raiseFault t s)
  | .ok rows =>
    match checkPixels (spritePixels (s.reg x).toNat (s.reg y).toNat rows) with
    | .error t => .next (raiseFault t s)
    | .ok _ => .next (s.drawSprite (spritePixels (s.reg x).toNat (s.reg y).toNat rows))

end Sys2Proof.Machine
end

