-- ==== Sys2Proof/Machine/IndexMemory.lean ====
section
/-! DEFINITION. The index register and memory transfer (43_index_memory.md). The checks of each range are those its byte accesses make, and a fault is raised in the state before the instruction. -/

namespace Sys2Proof.Machine

/-- LD I, nnn, ANNN (43_index_memory.md R190). -/
def execLdINnn (nnn : Addr12) (s : State) : Result := .next (s.setIdx (addrOperand nnn)).advance

/-- ADD I, Vx, FX1E (43_index_memory.md R191): modulo 65536, no flag. -/
def execAddIVx (x : Reg) (s : State) : Result :=
  .next (s.setIdx (s.idx + (s.reg x).setWidth 16)).advance

/-- LD F, Vx, FX29 (43_index_memory.md R192). -/
def execLdFVx (x : Reg) (s : State) : Result := .next (s.setIdx (glyphAddr (s.reg x))).advance

/-- Store bytes at `I`, `I + 1` and so on, and advance. -/
def State.storeAtIdx (s : State) (bytes : List Byte) : Except Trap State :=
  match memWriteRange s.mem (s.effAddr 0) bytes with
  | .error t => .error t
  | .ok m => .ok { s with mem := m }.advance

/-- LD B, Vx, FX33 (43_index_memory.md R193). -/
def execLdBVx (x : Reg) (s : State) : Result := conclude s (s.storeAtIdx (bcdDigits (s.reg x)))

/-- LD [I], Vx, FX55 (43_index_memory.md R194): `X + 1` bytes, `I` unchanged. -/
def execLdMemVx (x : Reg) (s : State) : Result := conclude s (s.storeAtIdx (s.regsUpTo x))

/-- LD Vx, [I], FX65 (43_index_memory.md R195): `X + 1` registers, `I` unchanged. -/
def execLdVxMem (x : Reg) (s : State) : Result :=
  match memReadRange s.mem (s.effAddr 0) (x.toNat + 1) with
  | .error t => .next (raiseFault t s)
  | .ok bytes => .next { s with v := loadRegs s.v 0 bytes }.advance

end Sys2Proof.Machine
end

