-- ==== Sys2Proof/Machine/KeysTimers.lean ====
section
/-! DEFINITION. Keypad and timer instructions (45_keys_timers.md). The tick of the same step comes after them, in the step. -/

namespace Sys2Proof.Machine

/-- SKP Vx, EX9E (45_keys_timers.md R230). -/
def execSkp (x : Reg) (s : State) : Result :=
  match s.keyOperand (s.reg x) with
  | .error t => .next (raiseFault t s)
  | .ok pressed => .next (s.skipIf pressed)

/-- SKNP Vx, EXA1 (45_keys_timers.md R231). -/
def execSknp (x : Reg) (s : State) : Result :=
  match s.keyOperand (s.reg x) with
  | .error t => .next (raiseFault t s)
  | .ok pressed => .next (s.skipIf (!pressed))

/-- LD Vx, DT, FX07 (45_keys_timers.md R233): `DT` before this step's tick. -/
def execLdVxDt (x : Reg) (s : State) : Result := .next (s.setReg x s.dt).advance

/-- LD Vx, K, FX0A (45_keys_timers.md R232): the lowest key that is down, else `pc` stays for the next poll. -/
def execLdVxK (x : Reg) (s : State) : Result :=
  match s.firstKey with
  | some k => .next (s.setReg x (BitVec.ofNat 8 k)).advance
  | none => .next s

/-- LD DT, Vx, FX15 (45_keys_timers.md R234). -/
def execLdDtVx (x : Reg) (s : State) : Result := .next (s.setDt (s.reg x)).advance

/-- LD ST, Vx, FX18 (45_keys_timers.md R235). -/
def execLdStVx (x : Reg) (s : State) : Result := .next (s.setSt (s.reg x)).advance

end Sys2Proof.Machine
end

