-- ==== Sys2Proof/Machine/Step.lean ====
section
/-! DEFINITION. One step of the core: fetch, decode, execute, timer tick (40_step_cycle.md R121, R129). -/

namespace Sys2Proof.Machine

/-- Step 3 of 40_step_cycle.md R121 for a fetched word: its instruction's rule, or the unknown-opcode rule R125. -/
def execWord (w : Word) (s : State) : Host.Outcome State Fault Refusal :=
  match decodeWord w with
  | .ok i => exec i s
  | .error _ => .next (execUnknown w s)

/-- A step in phase RUN (40_step_cycle.md R121). -/
def runStep (s : State) : Host.Outcome State Fault Refusal :=
  match s.fetch with
  | .error t => .next (raiseFault t s)
  | .ok w =>
    match execWord w s with
    | .next t => .next t.endStep
    | .fault r => .fault r
    | .refused r => .refused r

/-- `Step`: refused in INIT, without effect in FAULT, one instruction and one tick in RUN (40_step_cycle.md
R121, R129). -/
def step (s : State) : Host.Outcome State Fault Refusal :=
  match s.phase with
  | .init => .refused .stepBeforeLoad
  | .fault => .next s.clearOutputs
  | .run => runStep s.clearOutputs

/-- `s` with the instruction whose bits are `w` (numbered as spec/opcode_table.json numbers them) where
the next step fetches; it stands for the host's load of a program (log 3). -/
def State.withFetchWord (s : State) (nbits w : Nat) : State := s.placeInstruction (tableWord nbits w)

end Sys2Proof.Machine
end

