-- ==== Sys2Proof/WellFormed.lean ====
section
/-! DEFINITION. Well-formedness of what enters the machine: a program image and a key index. An instruction needs no check of its own. -/

namespace Sys2Proof

/-- Every `Instr` is well formed: each operand field has exactly the width of its place in the word and
every value of it is a legal operand (30_encoding.md R93, R97), so the type leaves nothing to check. -/
def Instr.wellFormed (_i : Instr) : Bool := true

/-- A program image `loadRom` accepts: at most 3584 bytes, of any parity and content (70_reset_and_hazards.md R292). -/
def romFits (bytes : List Byte) : Bool := bytes.length ≤ Config.romMax

/-- A key index `setKey` accepts: 0 to 15 (10_state.md R33). -/
def keyIndexOk (index : Nat) : Bool := index ≤ 15

end Sys2Proof
end

