-- ==== Sys2Proof/Machine/HostPort.lean ====
section
/-! DEFINITION. The host's operations on the core (10_state.md R33, 70_reset_and_hazards.md R291, R292). They happen between steps, one at a time. -/

namespace Sys2Proof.Machine

/-- The parameter `FONT`: exactly 80 bytes (00_scope.md R4, 10_state.md R28). -/
abbrev Font := Vector Byte Config.fontSize

/-- `initialize()` from any state, in a machine whose font is `font` (70_reset_and_hazards.md R291; log 6).
The count of random bytes drawn is the model's own field and goes on, so that later draws are fresh. -/
def State.initCore (s : State) (font : Font) : State :=
  { State.reset with mem := Memory.load [] 0 font.toList, draws := s.draws }

/-- What `loadRom` returns (70_reset_and_hazards.md R292). -/
inductive LoadResult where
  | ok
  | romTooLarge
  deriving DecidableEq, Repr

/-- The result `loadRom(bytes)` returns in phase INIT (70_reset_and_hazards.md R292, 60_exceptions.md R253). -/
def loadResult (bytes : List Byte) : LoadResult := if romFits bytes then .ok else .romTooLarge

/-- `loadRom(bytes)`: refused outside INIT; too long changes nothing; else the bytes go to 0x200 and the
phase becomes RUN (70_reset_and_hazards.md R292). -/
def State.loadRom (s : State) (bytes : List Byte) : Result :=
  match s.phase with
  | .init =>
    match loadResult bytes with
    | .romTooLarge => .next s
    | .ok => .next { s with mem := s.mem.load Config.progBase bytes, phase := .run }
  | .run => .refused .loadOutsideInit
  | .fault => .refused .loadOutsideInit

/-- `setKey(index, pressed)` in any phase; an index above 15 is outside its domain (10_state.md R27, R33). -/
def State.setKey (s : State) (index : Nat) (pressed : Bool) : Result :=
  if keyIndexOk index then .next { s with keys := s.keys.setIfInBounds index pressed }
  else .refused .keyIndexOutOfDomain

/-- `getFramebuffer()`: the 2048 cells, `FB[0]` first (10_state.md R26, R33). -/
def State.getFramebuffer (s : State) : List Bool := (List.range 2048).map s.cell

/-- `getDelayTimer()` (10_state.md R25, R33). -/
def State.getDelayTimer (s : State) : Byte := s.dt

/-- `getSoundTimer()` (10_state.md R25, R33, 60_exceptions.md R262). -/
def State.getSoundTimer (s : State) : Byte := s.st

/-- The code of `PHASE` (10_state.md R29). -/
def Phase.code : Phase → BitVec 2
  | .init => 0#2
  | .run => 1#2
  | .fault => 2#2

/-- The host's read of `PHASE`, `FCAUSE`, `FADDR` (10_state.md R33). -/
def State.readFaultRegisters (s : State) : BitVec 2 × BitVec 4 × BitVec 32 := (s.phase.code, s.fcause, s.faddr)

/-- The moves of an execution: the host's writing operations and the step it causes (00_scope.md R10). The
reads change nothing and are no moves. -/
inductive HostOp where
  | initCore (font : Font)
  | loadRom (bytes : List Byte)
  | setKey (index : Nat) (pressed : Bool)
  | step
  deriving DecidableEq, Repr

/-- One move (10_state.md R29, R33). -/
def HostOp.apply (op : HostOp) (s : State) : Result :=
  match op with
  | .initCore font => .next (s.initCore font)
  | .loadRom bytes => s.loadRom bytes
  | .setKey index pressed => s.setKey index pressed
  | .step => Machine.step s

end Sys2Proof.Machine
end

