-- ==== Sys2Proof/Safety.lean ====
section
/-! DEFINITION. The terms claims are stated in: parts of the state and frames over them, a fault raised precisely, the invariants, a run that has not faulted, and the suggested end of a run. -/

namespace Sys2Proof.Safety

open Sys2Proof.Machine

/-! ### Frames -/

/-- The parts of the state a frame speaks of; together they are all of it. -/
inductive Part where
  | regs | idx | pc | stack | dt | st | screen | keys | memory | run | outputs | draws
  deriving DecidableEq, Repr

/-- A part has the same contents in `t` as in `s`: memory byte by byte, the framebuffer cell by cell. -/
def Part.same (p : Part) (s t : State) : Prop :=
  match p with
  | .regs => ∀ r, t.reg r = s.reg r
  | .idx => t.idx = s.idx
  | .pc => t.pc = s.pc
  | .stack => t.sp = s.sp ∧ ∀ k, k < 16 → t.slot k = s.slot k
  | .dt => t.dt = s.dt
  | .st => t.st = s.st
  | .screen => ∀ k, k < 2048 → t.cell k = s.cell k
  | .keys => ∀ k, k < 16 → t.key k = s.key k
  | .memory => ∀ a, t.mem.read a = s.mem.read a
  | .run => t.phase = s.phase ∧ t.fcause = s.fcause ∧ t.faddr = s.faddr
  | .outputs => t.redraw = s.redraw ∧ t.diag = s.diag
  | .draws => t.draws = s.draws

/-- Every part not listed is the same. -/
def changesOnly (ps : List Part) (s t : State) : Prop := ∀ p, p ∉ ps → p.same s t

/-- Every general register not listed is the same. -/
def regsKeptBut (rs : List Reg) (s t : State) : Prop := ∀ r, r ∉ rs → t.reg r = s.reg r

/-- Every byte of memory outside the `n` bytes from `a` on is the same. -/
def memoryKeptOutside (a n : Nat) (s t : State) : Prop :=
  ∀ b, ¬(a ≤ b ∧ b < a + n) → t.mem.read b = s.mem.read b

/-- `t` is `s` with a fault of code `code` and offending value `info` recorded, and nothing else changed
(60_exceptions.md R256, R257). -/
def faultsWith (code info : Nat) (s t : State) : Prop :=
  t.phase = .fault ∧ t.fcause.toNat = code ∧ t.faddr.toNat = info ∧ changesOnly [.run] s t

/-! ### Fetch and sprites as the rules word them -/

/-- A valid fetch address: even and in 0x200 to 0xFFE (40_step_cycle.md R122). -/
def fetchable (pc : Word) : Prop := pc.toNat % 2 = 0 ∧ 0x200 ≤ pc.toNat ∧ pc.toNat ≤ 0xFFE

/-- `w` is `(MEM[pc] << 8) | MEM[pc+1]` (40_step_cycle.md R122). -/
def wordAt (s : State) (w : Word) : Prop :=
  w.toNat = (s.mem.read s.pc.toNat).toNat * 256 + (s.mem.read (s.pc.toNat + 1)).toNat

/-- In phase RUN at a valid address, with `w` the word there: the step fetches `w`. -/
def fetches (s : State) (w : Word) : Prop := s.phase = .run ∧ fetchable s.pc ∧ wordAt s w

/-- Bit `c` (from the left) of sprite row `r` is 1 (44_display.md R213). -/
def spriteBitSet (s : State) (r c : Nat) : Prop := (s.mem.read (s.idx.toNat + r)).getLsbD (7 - c) = true

/-- All `n` sprite rows lie in memory (44_display.md R212). -/
def spriteReadable (s : State) (n : BitVec 4) : Prop := n.toNat = 0 ∨ s.idx.toNat + n.toNat ≤ 0x1000

/-- The target of row `r`, column `c` of a sprite at (`V[x]`, `V[y]`) is inside the 64 by 32 grid (44_display.md R214). -/
def targetInside (s : State) (x y : Reg) (r c : Nat) : Prop :=
  (s.reg x).toNat + c ≤ 63 ∧ (s.reg y).toNat + r ≤ 31

/-- Every set bit of the sprite has its target inside (44_display.md R214). -/
def spriteInside (s : State) (x y : Reg) (n : BitVec 4) : Prop :=
  ∀ r c, r < n.toNat → c < 8 → spriteBitSet s r c → targetInside s x y r c

/-- Some set bit of the sprite has the cell `k` as its target (44_display.md R212). -/
def spriteCovers (s : State) (x y : Reg) (n : BitVec 4) (k : Nat) : Prop :=
  ∃ r c, r < n.toNat ∧ c < 8 ∧ spriteBitSet s r c ∧ k = ((s.reg x).toNat + c) + ((s.reg y).toNat + r) * 64

/-! ### Invariants -/

/-- Memory is in its canonical form and inside the 4096-byte space. -/
def memoryCanonical (s : State) : Prop := s.mem.wf = true

/-- `pc` is at most 0x10FE (10_state.md R23) and every stack entry in use is a valid fetch address
(41_control_flow.md R141: "only valid fetch addresses are ever pushed"). -/
def pcAndStackBounded (s : State) : Prop :=
  s.pc.toNat ≤ 0x10FE ∧ ∀ k, k < s.sp.val → fetchable (s.slot k)

/-- A cause is recorded exactly in phase FAULT, it is one of the seven, and with none recorded `FADDR` is 0
(10_state.md R29, R30). -/
def faultRecorded (s : State) : Prop :=
  (s.phase = .fault ↔ s.fcause ≠ 0#4) ∧ s.fcause.toNat ≤ 7 ∧ (s.fcause = 0#4 → s.faddr = 0#32)

/-- In phase INIT everything but the keys, the font and the outputs is as `initialize` left it (70_reset_and_hazards.md R291, R294). -/
def cleanWhileInit (s : State) : Prop :=
  s.phase = .init →
    (∀ r, s.reg r = 0#8) ∧ s.idx = 0#16 ∧ s.pc = 0x200#16 ∧ s.sp.val = 0 ∧ (∀ k, k < 16 → s.slot k = 0#16) ∧
      s.dt = 0#8 ∧ s.st = 0#8 ∧ (∀ k, k < 2048 → s.cell k = false) ∧ ∀ a, 0x050 ≤ a → s.mem.read a = 0#8

/-! ### Runs -/

/-- The premise of every claim about a run: no fault recorded (60_exceptions.md R258). -/
def notFaulted (s : State) : Prop := s.fcause = 0#4

/-- The spec's suggestion for `END_OF_RUN`: in phase RUN at a jump to itself (92_eei_decisions.md D23; log 17). -/
def atSelfJump (s : State) : Bool :=
  s.phase = .run && pcValid s.pc && (s.wordAtPc = encode (.jp (s.pc.extractLsb' 0 12)))

end Sys2Proof.Safety
end

