-- ==== Sys2Proof/Certificates/Slice0/Obligations.lean ====
section
/-! DEFINITION. The statements for the provers. "log <n>" is notes/assumptions/<n>.md; a docstring names the log entry or the spec's decision D<n> a statement rests on. -/

open Sys2Proof Sys2Proof.Machine Sys2Proof.Safety

/-! ### Encoding (30_encoding.md) -/

/-- The worked examples of 30_encoding.md R100, and one word of every family written out from R95. -/
def Obligations.SpecWordsDecode : Prop :=
  decodeWord 0x632A#16 = .ok (.ldVxNn 3#4 0x2A#8) ∧
  decodeWord 0xD125#16 = .ok (.drw 1#4 2#4 5#4) ∧
  decodeWord 0xF465#16 = .ok (.ldVxMem 4#4) ∧
  decodeWord 0x9560#16 = .ok (.sneVxVy 5#4 6#4) ∧
  decodeWord 0x12F0#16 = .ok (.jp 0x2F0#12) ∧
  decodeWord 0x8124#16 = .ok (.addVxVy 1#4 2#4) ∧
  decodeWord 0xE29E#16 = .ok (.skp 2#4) ∧
  decodeWord 0x00EE#16 = .ok .ret

/-- Decoding the encoding of any instruction gives it back, every operand at every value. Every
instruction is well formed, so no premise is needed (30_encoding.md sections 3, 6, 9). -/
def Obligations.DecodeAfterEncode : Prop := ∀ i : Instr, decodeWord (encode i) = .ok i

/-- A word that decodes is the encoding of the instruction it decodes to, so each word has one meaning. -/
def Obligations.EncodeAfterDecode : Prop := ∀ (w : Word) (i : Instr), decodeWord w = .ok i → encode i = w

/-- A word is rejected, by the name of the unknown opcode, exactly when it matches none of the 34 rows of
the opcode map (30_encoding.md sections 5 to 7; literal patterns are the spec's decision D11, log 7). -/
def Obligations.UnknownExactlyOutsideTheMap : Prop :=
  ∀ w : Word, decodeWord w = .error (.unknownOpcode w) ↔ ∀ row ∈ opcodeMap, row.matchesWord w = false

/-! ### The step (40_step_cycle.md) -/

/-- In phase RUN at a valid address whose two bytes, the first the more significant, decode to `i`, the
step clears the outputs, runs `exec i`, and ends the step (40_step_cycle.md sections 2, 4, 6). That the end is
the tick for every completed step, a waiting FX0A among them, and nothing for a faulted one, is the spec's
decisions D18 and D9 (log 12). -/
def Obligations.StepRunsDecodedInstruction : Prop :=
  ∀ (s : State) (w : Word) (i : Instr), fetches s w → decodeWord w = .ok i →
    step s =
      match exec i s.clearOutputs with
      | .next t => .next t.endStep
      | .fault r => .fault r
      | .refused r => .refused r

/-- A fetched word that is no instruction: reported, `pc + 2`, both timers tick, `redraw` is 0, nothing
else changes (40_step_cycle.md section 3). Which words are unknown is the spec's decision D11 (log 7); that the
step of an unknown word ticks is its decision D18 (log 12). -/
def Obligations.UnknownOpcodeIsReportedNoOp : Prop :=
  ∀ (s : State) (w : Word) (e : DecodeError), fetches s w → decodeWord w = .error e →
    ∃ t, step s = .next t ∧ t.pc = s.pc + 2#16 ∧ t.diag = some w ∧ t.redraw = false ∧
      t.dt.toNat = s.dt.toNat - 1 ∧ t.st.toNat = s.st.toNat - 1 ∧
      changesOnly [.pc, .outputs, .dt, .st] s t

/-- An odd `pc`, or one below 0x200 or above 0xFFE, faults with code 1 and the `pc` recorded; nothing is
fetched and no timer ticks (the spec's decisions D2, D9; log 1, log 19). -/
def Obligations.InvalidFetchAddressFaults : Prop :=
  ∀ s : State, s.phase = .run → ¬fetchable s.pc →
    ∃ t, step s = .next t ∧ faultsWith 1 s.pc.toNat s.clearOutputs t

/-- Outside phase RUN: in FAULT a step changes nothing and answers `redraw = 0`, `diag = 0`; in INIT it is
refused (the spec's decisions D9, D20; log 2, log 3). -/
def Obligations.StepOutsideRun : Prop :=
  (∀ s : State, s.phase = .fault →
    ∃ t, step s = .next t ∧ t.redraw = false ∧ t.diag = none ∧ changesOnly [.outputs] s t) ∧
  ∀ s : State, s.phase = .init → step s = .refused .stepBeforeLoad

/-- In phase RUN every step answers a next state, in phase RUN or FAULT: no instruction and no word is
refused (40_step_cycle.md section 1). -/
def Obligations.RunStepAlwaysAnswers : Prop :=
  ∀ s : State, s.phase = .run → ∃ t, step s = .next t ∧ (t.phase = .run ∨ t.phase = .fault)

/-- Every completed step decrements each timer that is above 0, unless its instruction wrote that timer
(the spec's decision D18; log 12). -/
def Obligations.CompletedStepTicksTimers : Prop :=
  ∀ (s t : State) (w : Word), fetches s w → step s = .next t → t.phase = .run →
    ((∀ x, decodeWord w ≠ .ok (.ldDtVx x)) → t.dt.toNat = s.dt.toNat - 1) ∧
    ((∀ x, decodeWord w ≠ .ok (.ldStVx x)) → t.st.toNat = s.st.toNat - 1)

/-- `redraw` is 1 if and only if the step executed 00E0 or DXYN and completed; every step that changes a cell
answers 1; `diag` and `diag_instr` are set only by an unknown opcode, to its word (40_step_cycle.md R127). -/
def Obligations.OutputsTellWhatRan : Prop :=
  ∀ s t : State, step s = .next t →
    (t.redraw = true ↔ t.phase = .run ∧ ∃ w, fetches s w ∧
      (decodeWord w = .ok .cls ∨ ∃ x y n, decodeWord w = .ok (.drw x y n))) ∧
    (¬Part.screen.same s t → t.redraw = true) ∧
    ∀ w, t.diag = some w ↔ fetches s w ∧ ∃ e, decodeWord w = .error e

/-- A step that faults changes nothing but the run-control registers: no register, byte, slot, cell or
timer, and `pc` still names the faulting instruction; the recorded code is 1 to 7 (the spec's decision D9;
log 1). -/
def Obligations.FaultedStepIsPrecise : Prop :=
  ∀ s t : State, s.phase = .run → step s = .next t → t.phase = .fault →
    t.redraw = false ∧ t.diag = none ∧ 1 ≤ t.fcause.toNat ∧ t.fcause.toNat ≤ 7 ∧
      changesOnly [.run, .outputs] s t

/-- Which instructions fault, and with which codes: 2 or 4 for DXYN, 2 or 3 for FX33 and FX55, 2 for FX65,
5 for EX9E and EXA1, 6 for 2NNN, 7 for 00EE, and no other instruction (60_exceptions.md section 2; log 19). -/
def Obligations.OnlyListedInstructionsFault : Prop :=
  ∀ (i : Instr) (s t : State), exec i s = .next t → s.phase ≠ .fault → t.phase = .fault →
    (∃ x y n, i = .drw x y n ∧ (t.fcause = 2#4 ∨ t.fcause = 4#4)) ∨
    (∃ x, (i = .ldBVx x ∨ i = .ldMemVx x) ∧ (t.fcause = 2#4 ∨ t.fcause = 3#4)) ∨
    (∃ x, i = .ldVxMem x ∧ t.fcause = 2#4) ∨
    (∃ x, (i = .skp x ∨ i = .sknp x) ∧ t.fcause = 5#4) ∨
    (∃ nnn, i = .call nnn ∧ t.fcause = 6#4) ∨
    (i = .ret ∧ t.fcause = 7#4)

/-- What no step can do, in any phase: write a key flag, write the font region, or leave its phase other
than for FAULT (40_step_cycle.md section 6). -/
def Obligations.StepNeverWritesKeysOrFont : Prop :=
  ∀ s t : State, step s = .next t →
    Part.keys.same s t ∧ (∀ a, a ≤ 0x04F → t.mem.read a = s.mem.read a) ∧
      (t.phase = s.phase ∨ t.phase = .fault)

/-- The random byte reaches no step but one that executes CXNN: any other step does the same whatever
stands in the draw counter, and leaves the counter alone. It holds of every stream of random bytes (log 5). -/
def Obligations.RandomByteOnlyReachesRnd : Prop :=
  ∀ (s t : State) (d : Nat), (∀ w x nn, fetches s w → decodeWord w ≠ .ok (.rnd x nn)) → step s = .next t →
    t.draws = s.draws ∧ step { s with draws := d } = .next { t with draws := d }

/-- Each store is written only by its own instructions: the framebuffer by 00E0 and DXYN, memory by FX33
and FX55, the stack by 2NNN and 00EE, `DT` by FX15, `ST` by FX18, `I` by ANNN, FX1E and FX29 (10_state.md
sections 3 to 6, 20_memory.md section 1). -/
def Obligations.EachStoreHasItsWriters : Prop :=
  ∀ (i : Instr) (s t : State), exec i s = .next t →
    (Part.screen.same s t ∨ i = .cls ∨ ∃ x y n, i = .drw x y n) ∧
    (Part.memory.same s t ∨ ∃ x, i = .ldBVx x ∨ i = .ldMemVx x) ∧
    (Part.stack.same s t ∨ i = .ret ∨ ∃ nnn, i = .call nnn) ∧
    (Part.dt.same s t ∨ ∃ x, i = .ldDtVx x) ∧
    (Part.st.same s t ∨ ∃ x, i = .ldStVx x) ∧
    (Part.idx.same s t ∨ (∃ nnn, i = .ldINnn nnn) ∨ ∃ x, i = .addIVx x ∨ i = .ldFVx x)

/-- `VF` changes only in the six instructions that write it as a flag and where register 15 is the
destination `X` (10_state.md section 2). -/
def Obligations.FlagRegisterHasItsWriters : Prop :=
  ∀ (i : Instr) (s t : State), exec i s = .next t → t.reg 15#4 ≠ s.reg 15#4 →
    (∃ x y, i = .addVxVy x y ∨ i = .sub x y ∨ i = .shr x y ∨ i = .subn x y ∨ i = .shl x y) ∨
    (∃ x y n, i = .drw x y n) ∨
    (∃ nn, i = .ldVxNn 15#4 nn ∨ i = .addVxNn 15#4 nn ∨ i = .rnd 15#4 nn) ∨
    (∃ y, i = .ldVxVy 15#4 y ∨ i = .or 15#4 y ∨ i = .and 15#4 y ∨ i = .xor 15#4 y) ∨
    i = .ldVxDt 15#4 ∨ i = .ldVxK 15#4 ∨ i = .ldVxMem 15#4

/-! ### Invariants -/

/-- Every step keeps memory in its canonical form, inside the 4096-byte space (log 16). -/
def Obligations.StepKeepsMemoryCanonical : Prop :=
  ∀ s t : State, memoryCanonical s → step s = .next t → memoryCanonical t

/-- Every step keeps `pc` at most 0x10FE and only valid fetch addresses on the stack (10_state.md section
3 and 41_control_flow.md section 2, both the spec's own inferences). -/
def Obligations.StepKeepsPcAndStackBounded : Prop :=
  ∀ s t : State, pcAndStackBounded s → step s = .next t → pcAndStackBounded t

/-- Every step keeps a fault recorded exactly in phase FAULT (10_state.md section 9; log 1). -/
def Obligations.StepKeepsFaultRecorded : Prop :=
  ∀ s t : State, faultRecorded s → step s = .next t → faultRecorded t

/-- Every operation of the host, and every step it causes, keeps all the invariants, and in phase INIT
everything is as `initialize` left it, so that a program starts from zeros (70_reset_and_hazards.md section 3; log 17). -/
def Obligations.EveryMoveKeepsInvariants : Prop :=
  ∀ (op : HostOp) (s t : State), op.apply s = .next t →
    memoryCanonical s ∧ pcAndStackBounded s ∧ faultRecorded s ∧ cleanWhileInit s →
    memoryCanonical t ∧ pcAndStackBounded t ∧ faultRecorded t ∧ cleanWhileInit t

/-- State.reset meets every invariant. -/
def Obligations.ResetMeetsInvariants : Prop :=
  memoryCanonical State.reset ∧ pcAndStackBounded State.reset ∧ faultRecorded State.reset ∧
    cleanWhileInit State.reset

/-! ### Control transfer (41_control_flow.md) -/

/-- 1NNN: `pc = NNN`, nothing else (41_control_flow.md section 3); a bad target faults at the next step's fetch
(decision D2). -/
def Obligations.JumpSetsPc : Prop :=
  ∀ (s : State) (nnn : Addr12), ∃ t, exec (.jp nnn) s = .next t ∧ t.pc.toNat = nnn.toNat ∧
    changesOnly [.pc] s t ∧
    (∀ u : State, u.phase = .run → u.pc = t.pc → ¬fetchable u.pc →
      ∃ u', step u = .next u' ∧ faultsWith 1 nnn.toNat u.clearOutputs u')

/-- BNNN: `pc = NNN + V[0]`, not reduced modulo 4096, nothing else (41_control_flow.md section 6); a bad sum
faults at the next step's fetch (decision D2). -/
def Obligations.IndexedJumpSetsPc : Prop :=
  ∀ (s : State) (nnn : Addr12), ∃ t, exec (.jpV0 nnn) s = .next t ∧
    t.pc.toNat = nnn.toNat + (s.reg 0#4).toNat ∧ t.pc.toNat ≤ 0x10FE ∧ changesOnly [.pc] s t ∧
    (∀ u : State, u.phase = .run → u.pc = t.pc → ¬fetchable u.pc →
      ∃ u', step u = .next u' ∧ faultsWith 1 (nnn.toNat + (s.reg 0#4).toNat) u.clearOutputs u')

/-- 3XNN, 4XNN, 5XY0 and 9XY0: skip on equal, skip on not equal, against the immediate or the second
register; only `pc` changes (41_control_flow.md R144 to R147). -/
def Obligations.SkipsOnEquality : Prop :=
  ∀ (s : State) (x y : Reg) (nn : Byte),
    (∃ t, exec (.seVxNn x nn) s = .next t ∧ changesOnly [.pc] s t ∧
      (s.reg x = nn → t.pc = s.pc + 4#16) ∧ (s.reg x ≠ nn → t.pc = s.pc + 2#16)) ∧
    (∃ t, exec (.sneVxNn x nn) s = .next t ∧ changesOnly [.pc] s t ∧
      (s.reg x ≠ nn → t.pc = s.pc + 4#16) ∧ (s.reg x = nn → t.pc = s.pc + 2#16)) ∧
    (∃ t, exec (.seVxVy x y) s = .next t ∧ changesOnly [.pc] s t ∧
      (s.reg x = s.reg y → t.pc = s.pc + 4#16) ∧ (s.reg x ≠ s.reg y → t.pc = s.pc + 2#16)) ∧
    ∃ t, exec (.sneVxVy x y) s = .next t ∧ changesOnly [.pc] s t ∧
      (s.reg x ≠ s.reg y → t.pc = s.pc + 4#16) ∧ (s.reg x = s.reg y → t.pc = s.pc + 2#16)

/-- 2NNN with fewer than 16 entries in use: its own address on top of the stack, `pc = NNN`, every other
slot and everything else unchanged (41_control_flow.md section 4; slot numbering is decision D25). -/
def Obligations.CallPushesItsAddress : Prop :=
  ∀ (s : State) (nnn : Addr12), s.sp.val < 16 →
    ∃ t, exec (.call nnn) s = .next t ∧ t.slot s.sp.val = s.pc ∧ t.sp.val = s.sp.val + 1 ∧
      t.pc.toNat = nnn.toNat ∧ (∀ k, k < 16 → k ≠ s.sp.val → t.slot k = s.slot k) ∧
      changesOnly [.stack, .pc] s t

/-- 00EE with an entry in use: `pc` is the popped address plus 2, the slot keeps its value, everything else
unchanged (41_control_flow.md section 2; log 13 for a slot above 0xFFFD, which no run holds). -/
def Obligations.ReturnPopsPlusTwo : Prop :=
  ∀ s : State, s.sp.val ≠ 0 →
    ∃ t, exec .ret s = .next t ∧ t.pc = s.slot (s.sp.val - 1) + 2#16 ∧ t.sp.val = s.sp.val - 1 ∧
      (∀ k, k < 16 → t.slot k = s.slot k) ∧ changesOnly [.stack, .pc] s t

/-- A call on a full stack faults with code 6, a return on an empty one with code 7, a key skip on an index
above 15 with code 5 and the whole byte, unmasked; nothing else changes (the spec's decisions D6, D7, D8; log 19). -/
def Obligations.StackAndKeyFaults : Prop :=
  (∀ (s : State) (nnn : Addr12), s.sp.val = 16 → ∃ t, exec (.call nnn) s = .next t ∧ faultsWith 6 16 s t) ∧
  (∀ s : State, s.sp.val = 0 → ∃ t, exec .ret s = .next t ∧ faultsWith 7 0 s t) ∧
  ∀ (s : State) (x : Reg), 15 < (s.reg x).toNat →
    (∃ t, exec (.skp x) s = .next t ∧ faultsWith 5 (s.reg x).toNat s t) ∧
    ∃ t, exec (.sknp x) s = .next t ∧ faultsWith 5 (s.reg x).toNat s t

/-- A call and then a return come back to the address after the call with the stack pointer as before
(95_test_vectors.md S3). -/
def Obligations.CallThenReturnRoundTrip : Prop :=
  ∀ (s : State) (nnn : Addr12), s.sp.val < 16 →
    ∃ t u, exec (.call nnn) s = .next t ∧ exec .ret t = .next u ∧ u.pc = s.pc + 2#16 ∧ u.sp = s.sp

/-! ### Arithmetic and logic (42_alu.md) -/

/-- 6XNN and 7XNN: the immediate loaded, the immediate added modulo 256 with no flag; nothing else but `pc`
changes (42_alu.md R161, R162). -/
def Obligations.ImmediateLoadAndAdd : Prop :=
  ∀ (s : State) (x : Reg) (nn : Byte),
    (∃ t, exec (.ldVxNn x nn) s = .next t ∧ t.reg x = nn ∧ t.pc = s.pc + 2#16 ∧
      regsKeptBut [x] s t ∧ changesOnly [.regs, .pc] s t) ∧
    ∃ t, exec (.addVxNn x nn) s = .next t ∧ (t.reg x).toNat = ((s.reg x).toNat + nn.toNat) % 256 ∧
      t.pc = s.pc + 2#16 ∧ regsKeptBut [x] s t ∧ changesOnly [.regs, .pc] s t

/-- 8XY0 to 8XY3: copy, or, and, exclusive or; every other register, `VF` among them, is untouched unless it
is the destination (42_alu.md R163 to R166). -/
def Obligations.CopyAndLogic : Prop :=
  ∀ (s : State) (x y : Reg),
    (∃ t, exec (.ldVxVy x y) s = .next t ∧ t.reg x = s.reg y ∧ t.pc = s.pc + 2#16 ∧
      regsKeptBut [x] s t ∧ changesOnly [.regs, .pc] s t) ∧
    (∃ t, exec (.or x y) s = .next t ∧
      (∀ k, (t.reg x).getLsbD k = ((s.reg x).getLsbD k || (s.reg y).getLsbD k)) ∧ t.pc = s.pc + 2#16 ∧
      regsKeptBut [x] s t ∧ changesOnly [.regs, .pc] s t) ∧
    (∃ t, exec (.and x y) s = .next t ∧
      (∀ k, (t.reg x).getLsbD k = ((s.reg x).getLsbD k && (s.reg y).getLsbD k)) ∧ t.pc = s.pc + 2#16 ∧
      regsKeptBut [x] s t ∧ changesOnly [.regs, .pc] s t) ∧
    ∃ t, exec (.xor x y) s = .next t ∧
      (∀ k, (t.reg x).getLsbD k = ((s.reg x).getLsbD k ^^ (s.reg y).getLsbD k)) ∧ t.pc = s.pc + 2#16 ∧
      regsKeptBut [x] s t ∧ changesOnly [.regs, .pc] s t

/-- 8XY4 by the case table of 42_alu.md section 4: the carry, and the sum of the operands as they are after
the flag is written (the spec's decision D12; log 8). -/
def Obligations.AddWithCarryTable : Prop :=
  ∀ (s : State) (x y : Reg),
    let a := (s.reg x).toNat
    let b := (s.reg y).toNat
    let c := if a + b > 255 then 1 else 0
    ∃ t, exec (.addVxVy x y) s = .next t ∧ t.pc = s.pc + 2#16 ∧ regsKeptBut [x, 15#4] s t ∧
      changesOnly [.regs, .pc] s t ∧
      (x ≠ 15#4 → y ≠ 15#4 → (t.reg x).toNat = (a + b) % 256 ∧ (t.reg 15#4).toNat = c) ∧
      (x ≠ 15#4 → y = 15#4 → (t.reg x).toNat = (a + c) % 256 ∧ (t.reg 15#4).toNat = c) ∧
      (x = 15#4 → y ≠ 15#4 → (t.reg 15#4).toNat = (c + b) % 256) ∧
      (x = 15#4 → y = 15#4 → (t.reg 15#4).toNat = 2 * c)

/-- 8XY5 by the case table of 42_alu.md section 4: the not-borrow, and the difference of the operands as
they are after the flag is written (the spec's decision D12; log 8). -/
def Obligations.SubtractTable : Prop :=
  ∀ (s : State) (x y : Reg),
    let a := (s.reg x).toNat
    let b := (s.reg y).toNat
    let f := if b > a then 0 else 1
    ∃ t, exec (.sub x y) s = .next t ∧ t.pc = s.pc + 2#16 ∧ regsKeptBut [x, 15#4] s t ∧
      changesOnly [.regs, .pc] s t ∧
      (x ≠ 15#4 → y ≠ 15#4 → (t.reg x).toNat = (a + 256 - b) % 256 ∧ (t.reg 15#4).toNat = f) ∧
      (x ≠ 15#4 → y = 15#4 → (t.reg x).toNat = (a + 256 - f) % 256 ∧ (t.reg 15#4).toNat = f) ∧
      (x = 15#4 → y ≠ 15#4 → (t.reg 15#4).toNat = (f + 256 - b) % 256) ∧
      (x = 15#4 → y = 15#4 → (t.reg 15#4).toNat = 0)

/-- 8XY7 by the case table of 42_alu.md section 4: the not-borrow of the reversed difference, and that
difference of the operands as they are after the flag is written (the spec's decision D12; log 8). -/
def Obligations.ReverseSubtractTable : Prop :=
  ∀ (s : State) (x y : Reg),
    let a := (s.reg x).toNat
    let b := (s.reg y).toNat
    let f := if a > b then 0 else 1
    ∃ t, exec (.subn x y) s = .next t ∧ t.pc = s.pc + 2#16 ∧ regsKeptBut [x, 15#4] s t ∧
      changesOnly [.regs, .pc] s t ∧
      (x ≠ 15#4 → y ≠ 15#4 → (t.reg x).toNat = (b + 256 - a) % 256 ∧ (t.reg 15#4).toNat = f) ∧
      (x ≠ 15#4 → y = 15#4 → (t.reg x).toNat = (f + 256 - a) % 256 ∧ (t.reg 15#4).toNat = f) ∧
      (x = 15#4 → y ≠ 15#4 → (t.reg 15#4).toNat = (b + 256 - f) % 256) ∧
      (x = 15#4 → y = 15#4 → (t.reg 15#4).toNat = 0)

/-- 8XY6: bit 0 to `VF` and half of `V[X]` in place, whatever `Y` is; with `X = 15`, `VF = 0` (42_alu.md
section 5; the order is the spec's decision D12, log 8). -/
def Obligations.ShiftRightInPlace : Prop :=
  ∀ (s : State) (x y : Reg), ∃ t, exec (.shr x y) s = .next t ∧ t.pc = s.pc + 2#16 ∧
    regsKeptBut [x, 15#4] s t ∧ changesOnly [.regs, .pc] s t ∧
    (x ≠ 15#4 → (t.reg x).toNat = (s.reg x).toNat / 2 ∧ (t.reg 15#4).toNat = (s.reg x).toNat % 2) ∧
    (x = 15#4 → t.reg 15#4 = 0#8)

/-- 8XYE: bit 7 to `VF` and twice `V[X]` modulo 256 in place, whatever `Y` is; with `X = 15`, `VF` is 2 or 0
by its old bit 7 (42_alu.md section 5; the order is the spec's decision D12, log 8). -/
def Obligations.ShiftLeftInPlace : Prop :=
  ∀ (s : State) (x y : Reg), ∃ t, exec (.shl x y) s = .next t ∧ t.pc = s.pc + 2#16 ∧
    regsKeptBut [x, 15#4] s t ∧ changesOnly [.regs, .pc] s t ∧
    (x ≠ 15#4 → (t.reg x).toNat = 2 * (s.reg x).toNat % 256 ∧ (t.reg 15#4).toNat = (s.reg x).toNat / 128) ∧
    (x = 15#4 → (t.reg 15#4).toNat = 2 * ((s.reg 15#4).toNat / 128))

/-- CXNN: the next free random byte, masked; no bit outside the mask is set. It holds of every value of the
byte (42_alu.md section 6; the spec's decision D16, log 5). -/
def Obligations.RandomIsMaskedFreeByte : Prop :=
  ∀ (s : State) (x : Reg) (nn : Byte), ∃ t, exec (.rnd x nn) s = .next t ∧
    t.reg x = Config.rnd s.draws &&& nn ∧ (∀ k, (t.reg x).getLsbD k = true → nn.getLsbD k = true) ∧
    t.draws = s.draws + 1 ∧ t.pc = s.pc + 2#16 ∧ regsKeptBut [x] s t ∧ changesOnly [.regs, .pc, .draws] s t

/-! ### Index register and memory (43_index_memory.md) -/

/-- ANNN and FX29: `I` is the zero-extended immediate, `I` is five times the whole byte; nothing else but
`pc` changes (43_index_memory.md R190, R192). -/
def Obligations.IndexLoads : Prop :=
  (∀ (s : State) (nnn : Addr12), ∃ t, exec (.ldINnn nnn) s = .next t ∧ t.idx.toNat = nnn.toNat ∧
    t.pc = s.pc + 2#16 ∧ changesOnly [.idx, .pc] s t) ∧
  ∀ (s : State) (x : Reg), ∃ t, exec (.ldFVx x) s = .next t ∧ t.idx.toNat = (s.reg x).toNat * 5 ∧
    t.pc = s.pc + 2#16 ∧ changesOnly [.idx, .pc] s t

/-- FX1E: `I + V[X]` modulo 65536, no flag (43_index_memory.md section 1; the modulus is the spec's decision D22, log 20). -/
def Obligations.IndexAddWraps : Prop :=
  ∀ (s : State) (x : Reg), ∃ t, exec (.addIVx x) s = .next t ∧
    t.idx.toNat = (s.idx.toNat + (s.reg x).toNat) % 65536 ∧ t.pc = s.pc + 2#16 ∧ changesOnly [.idx, .pc] s t

/-- FX33 with its three bytes in RAM: hundreds, tens and ones at `I`, `I + 1`, `I + 2`, every other byte as
before, nothing else but `pc` changed (43_index_memory.md section 2). Decisions D3 and D4 bound the range (log 19);
that 0x050 to 0x1FF can be written is decision D27 (log 25). -/
def Obligations.BcdStores : Prop :=
  ∀ (s : State) (x : Reg), 0x050 ≤ s.idx.toNat → s.idx.toNat + 2 ≤ 0xFFF →
    ∃ t, exec (.ldBVx x) s = .next t ∧
      (t.mem.read s.idx.toNat).toNat = (s.reg x).toNat / 100 ∧
      (t.mem.read (s.idx.toNat + 1)).toNat = (s.reg x).toNat / 10 % 10 ∧
      (t.mem.read (s.idx.toNat + 2)).toNat = (s.reg x).toNat % 10 ∧
      memoryKeptOutside s.idx.toNat 3 s t ∧ t.pc = s.pc + 2#16 ∧ changesOnly [.memory, .pc] s t

/-- FX55 with its `X + 1` bytes in RAM: `V[k]` at `I + k`, every other byte as before, `I` unchanged
(43_index_memory.md section 2). Decisions D3 and D4 bound the range (log 19); that 0x050 to 0x1FF can be written
is decision D27 (log 25). -/
def Obligations.RegisterStores : Prop :=
  ∀ (s : State) (x : Reg), 0x050 ≤ s.idx.toNat → s.idx.toNat + x.toNat ≤ 0xFFF →
    ∃ t, exec (.ldMemVx x) s = .next t ∧
      (∀ r : Reg, r.toNat ≤ x.toNat → t.mem.read (s.idx.toNat + r.toNat) = s.reg r) ∧
      memoryKeptOutside s.idx.toNat (x.toNat + 1) s t ∧ t.pc = s.pc + 2#16 ∧ changesOnly [.memory, .pc] s t

/-- FX65 with its `X + 1` bytes in memory, the font region included: `V[k]` from `I + k`, registers above `X`
and `I` unchanged (43_index_memory.md section 3; decision D3 bounds the range, log 19). -/
def Obligations.RegisterLoads : Prop :=
  ∀ (s : State) (x : Reg), s.idx.toNat + x.toNat ≤ 0xFFF →
    ∃ t, exec (.ldVxMem x) s = .next t ∧
      (∀ r : Reg, r.toNat ≤ x.toNat → t.reg r = s.mem.read (s.idx.toNat + r.toNat)) ∧
      (∀ r : Reg, x.toNat < r.toNat → t.reg r = s.reg r) ∧ t.pc = s.pc + 2#16 ∧ changesOnly [.regs, .pc] s t

/-- The range faults of FX33, FX55 and FX65: code 2 with `max(I, 0x1000)` past the top of memory, code 3
with `I` for a store based in the font region; nothing is written (the spec's decisions D3, D4, D9; log 19, log 21). -/
def Obligations.RangeFaults : Prop :=
  ∀ (s : State) (x : Reg),
    (0xFFF < s.idx.toNat + 2 → ∃ t, exec (.ldBVx x) s = .next t ∧ faultsWith 2 (max s.idx.toNat 0x1000) s t) ∧
    (s.idx.toNat ≤ 0x04F → ∃ t, exec (.ldBVx x) s = .next t ∧ faultsWith 3 s.idx.toNat s t) ∧
    (0xFFF < s.idx.toNat + x.toNat →
      ∃ t, exec (.ldMemVx x) s = .next t ∧ faultsWith 2 (max s.idx.toNat 0x1000) s t) ∧
    (s.idx.toNat ≤ 0x04F → ∃ t, exec (.ldMemVx x) s = .next t ∧ faultsWith 3 s.idx.toNat s t) ∧
    (0xFFF < s.idx.toNat + x.toNat →
      ∃ t, exec (.ldVxMem x) s = .next t ∧ faultsWith 2 (max s.idx.toNat 0x1000) s t)

/-- A program that stores two registers over the instruction after the store runs the stored word next
(20_memory.md section 6, an inference of the spec's own). -/
def Obligations.StoredWordIsFetchedNext : Prop :=
  ∀ (s : State) (w w' : Word) (x : Reg), fetches s w → decodeWord w = .ok (.ldMemVx x) → 1 ≤ x.toNat →
    s.idx.toNat = s.pc.toNat + 2 → s.idx.toNat + x.toNat ≤ 0xFFF →
    w'.toNat = (s.reg 0#4).toNat * 256 + (s.reg 1#4).toNat →
    ∃ t, step s = .next t ∧ fetches t w'

/-! ### Display (44_display.md) -/

/-- 00E0: every cell 0, `redraw` 1, `VF` and everything else but `pc` unchanged (44_display.md R211). -/
def Obligations.ClearScreen : Prop :=
  ∀ s : State, ∃ t, exec .cls s = .next t ∧ (∀ k, k < 2048 → t.cell k = false) ∧ t.redraw = true ∧
    t.diag = s.diag ∧ t.pc = s.pc + 2#16 ∧ changesOnly [.screen, .outputs, .pc] s t

/-- DXYN with its rows in memory and its set bits inside the grid: exactly the covered cells are toggled, `VF`
is 1 if one of them was 1 and 0 if none was, `redraw` is 1, and everything else but `pc` is unchanged.
Coordinates from before `VF` is written (decision D13, log 9), bit 7 leftmost (D14, log 10), no wrap (D5, log 19). -/
def Obligations.DrawTogglesCoveredCells : Prop :=
  ∀ (s : State) (x y : Reg) (n : BitVec 4), spriteReadable s n → spriteInside s x y n →
    ∃ t, exec (.drw x y n) s = .next t ∧
      (∀ k, spriteCovers s x y n k → t.cell k = !s.cell k) ∧
      (∀ k, k < 2048 → ¬spriteCovers s x y n k → t.cell k = s.cell k) ∧
      ((∃ k, spriteCovers s x y n k ∧ s.cell k = true) → t.reg 15#4 = 1#8) ∧
      ((∀ k, spriteCovers s x y n k → s.cell k = false) → t.reg 15#4 = 0#8) ∧
      t.redraw = true ∧ t.diag = s.diag ∧ t.pc = s.pc + 2#16 ∧ regsKeptBut [15#4] s t ∧
      changesOnly [.regs, .screen, .outputs, .pc] s t

/-- DXYN with a row above 0xFFF faults with code 2, whatever its bits and coordinates are; nothing is drawn
(the spec's decisions D3, D9; log 19). -/
def Obligations.DrawOutOfMemoryFaults : Prop :=
  ∀ (s : State) (x y : Reg) (n : BitVec 4), ¬spriteReadable s n →
    ∃ t, exec (.drw x y n) s = .next t ∧ faultsWith 2 (max s.idx.toNat 0x1000) s t

/-- DXYN with its rows in memory and a set bit outside the grid faults with code 4 and the row and column of
the first such bit, rows ascending and then columns; nothing is drawn (the spec's decisions D5, D9; log 19).
With X or Y = 15 the coordinate is the old `VF` (decision D13, log 9); bit 7 is leftmost (D14, log 10). -/
def Obligations.DrawOutsideGridFaults : Prop :=
  ∀ (s : State) (x y : Reg) (n : BitVec 4) (r c : Nat), spriteReadable s n → r < n.toNat → c < 8 →
    spriteBitSet s r c → ¬targetInside s x y r c →
    (∀ r' c', r' < n.toNat → c' < 8 → spriteBitSet s r' c' → r' < r ∨ (r' = r ∧ c' < c) →
      targetInside s x y r' c') →
    ∃ t, exec (.drw x y n) s = .next t ∧
      faultsWith 4 (((s.reg y).toNat + r) * 65536 + ((s.reg x).toNat + c)) s t

/-- Drawing the same sprite twice at the same place restores every cell (44_display.md section 1); the
coordinates are named by registers other than `VF`, which the first draw writes. Which bits must lie inside
the grid is by bit 7 leftmost (decision D14, log 10) and no wrap (D5, log 19). -/
def Obligations.DrawTwiceRestores : Prop :=
  ∀ (s : State) (x y : Reg) (n : BitVec 4), x ≠ 15#4 → y ≠ 15#4 → spriteReadable s n → spriteInside s x y n →
    ∃ t u, exec (.drw x y n) s = .next t ∧ exec (.drw x y n) t = .next u ∧ Part.screen.same s u

/-! ### Keys and timers (45_keys_timers.md) -/

/-- EX9E and EXA1 with an index of at most 15: skip if the key is pressed, skip if it is not; only `pc`
changes (45_keys_timers.md section 1). -/
def Obligations.SkipOnKey : Prop :=
  ∀ (s : State) (x : Reg), (s.reg x).toNat ≤ 15 →
    (∃ t, exec (.skp x) s = .next t ∧ changesOnly [.pc] s t ∧
      (s.key (s.reg x).toNat = true → t.pc = s.pc + 4#16) ∧
      (s.key (s.reg x).toNat = false → t.pc = s.pc + 2#16)) ∧
    ∃ t, exec (.sknp x) s = .next t ∧ changesOnly [.pc] s t ∧
      (s.key (s.reg x).toNat = false → t.pc = s.pc + 4#16) ∧
      (s.key (s.reg x).toNat = true → t.pc = s.pc + 2#16)

/-- FX0A: with no key down nothing changes, `pc` included; otherwise `V[X]` is the lowest key down and `pc`
advances (45_keys_timers.md section 2; the lowest is the spec's decision D17, log 11). -/
def Obligations.WaitForKey : Prop :=
  ∀ (s : State) (x : Reg),
    ((∀ k, k < 16 → s.key k = false) → ∃ t, exec (.ldVxK x) s = .next t ∧ changesOnly [] s t) ∧
    ∀ k, k < 16 → s.key k = true → (∀ j, j < k → s.key j = false) →
      ∃ t, exec (.ldVxK x) s = .next t ∧ (t.reg x).toNat = k ∧ t.pc = s.pc + 2#16 ∧
        regsKeptBut [x] s t ∧ changesOnly [.regs, .pc] s t

/-- FX07: `V[X]` is `DT` from before this step's tick, which then decrements `DT` (45_keys_timers.md section 3). -/
def Obligations.ReadDelayTimer : Prop :=
  (∀ (s : State) (x : Reg), ∃ t, exec (.ldVxDt x) s = .next t ∧ t.reg x = s.dt ∧ t.pc = s.pc + 2#16 ∧
    regsKeptBut [x] s t ∧ changesOnly [.regs, .pc] s t) ∧
  ∀ (s : State) (w : Word) (x : Reg), fetches s w → decodeWord w = .ok (.ldVxDt x) →
    ∃ t, step s = .next t ∧ t.reg x = s.dt ∧ t.dt.toNat = s.dt.toNat - 1

/-- FX15 and FX18: `DT` or `ST` is `V[X]`, and `max(V[X] - 1, 0)` at the end of the same step, while the
other timer ticks as in any step; the core does nothing else with `ST`: any step does the same, `ST` apart,
whatever stands in it (45_keys_timers.md R234, R235). -/
def Obligations.WriteTimers : Prop :=
  (∀ (s : State) (x : Reg), ∃ t, exec (.ldDtVx x) s = .next t ∧ t.dt = s.reg x ∧ t.pc = s.pc + 2#16 ∧
    changesOnly [.dt, .pc] s t) ∧
  (∀ (s : State) (x : Reg), ∃ t, exec (.ldStVx x) s = .next t ∧ t.st = s.reg x ∧ t.pc = s.pc + 2#16 ∧
    changesOnly [.st, .pc] s t) ∧
  (∀ (s : State) (w : Word) (x : Reg), fetches s w → decodeWord w = .ok (.ldDtVx x) →
    ∃ t, step s = .next t ∧ t.dt.toNat = (s.reg x).toNat - 1 ∧ t.st.toNat = s.st.toNat - 1) ∧
  (∀ (s : State) (w : Word) (x : Reg), fetches s w → decodeWord w = .ok (.ldStVx x) →
    ∃ t, step s = .next t ∧ t.st.toNat = (s.reg x).toNat - 1 ∧ t.dt.toNat = s.dt.toNat - 1) ∧
  ∀ (s t : State) (b : Byte), step s = .next t → ∃ c, step { s with st := b } = .next { t with st := c }

/-! ### The host's operations (10_state.md, 70_reset_and_hazards.md) -/

/-- `initialize` from any state and with any font: every register, slot, key, cell and timer 0, `pc` 0x200,
the font at 0x000 to 0x04F and zeros above, phase INIT, no fault recorded; and no other operation leads out of
phase FAULT (70_reset_and_hazards.md R291). -/
def Obligations.InitializeResetsEverything : Prop :=
  (∀ (s : State) (font : Font), ∃ t, HostOp.apply (.initCore font) s = .next t ∧
    (∀ r, t.reg r = 0#8) ∧ t.idx = 0#16 ∧ t.pc = 0x200#16 ∧ t.sp.val = 0 ∧ (∀ k, k < 16 → t.slot k = 0#16) ∧
    t.dt = 0#8 ∧ t.st = 0#8 ∧ (∀ k, k < 2048 → t.cell k = false) ∧ (∀ k, k < 16 → t.key k = false) ∧
    (∀ (k : Nat) (h : k < 80), t.mem.read k = font[k]) ∧
    (∀ a, 0x050 ≤ a → a ≤ 0xFFF → t.mem.read a = 0#8) ∧
    t.phase = .init ∧ t.fcause = 0#4 ∧ t.faddr = 0#32) ∧
  ∀ (op : HostOp) (s t : State), s.phase = .fault → op.apply s = .next t → t.phase ≠ .fault →
    ∃ font, op = .initCore font

/-- State.reset is what `initialize` leaves with the default font (log 6, which names the font bytes, the
model's choice; log 4 and log 5 for the model's own three fields). -/
def Obligations.ResetIsInitializeWithDefaultFont : Prop :=
  ∃ font : Font, font.toList = defaultFont ∧ ∀ s : State, s.draws = 0 → s.initCore font = State.reset

/-- `loadRom` in INIT: at most 3584 bytes go to 0x200 and the phase becomes RUN; more is RomTooLarge and
changes nothing; outside INIT it is refused (70_reset_and_hazards.md section 2; decisions D20, D28; log 23, log 26). -/
def Obligations.LoadRomOutcomes : Prop :=
  ∀ (s : State) (bytes : List Byte),
    (s.phase = .init → bytes.length ≤ 3584 →
      loadResult bytes = .ok ∧ ∃ t, HostOp.apply (.loadRom bytes) s = .next t ∧
        (∀ (k : Nat) (h : k < bytes.length), t.mem.read (0x200 + k) = bytes[k]) ∧
        memoryKeptOutside 0x200 bytes.length s t ∧
        t.phase = .run ∧ t.fcause = s.fcause ∧ t.faddr = s.faddr ∧ changesOnly [.memory, .run] s t) ∧
    (s.phase = .init → 3584 < bytes.length →
      loadResult bytes = .romTooLarge ∧ HostOp.apply (.loadRom bytes) s = .next s) ∧
    (s.phase ≠ .init → HostOp.apply (.loadRom bytes) s = .refused .loadOutsideInit)

/-- `setKey` in any phase writes that one flag; an index above 15 is refused (10_state.md sections 7 and 11;
decision D1; log 23). -/
def Obligations.SetKeyWritesOneFlag : Prop :=
  ∀ (s : State) (index : Nat) (pressed : Bool),
    (index ≤ 15 → ∃ t, HostOp.apply (.setKey index pressed) s = .next t ∧ t.key index = pressed ∧
      (∀ k, k < 16 → k ≠ index → t.key k = s.key k) ∧ changesOnly [.keys] s t) ∧
    (15 < index → HostOp.apply (.setKey index pressed) s = .refused .keyIndexOutOfDomain)

/-- The boot sequence: after `initialize` and a load of at least two bytes the machine fetches the program's
first two bytes at 0x200 (70_reset_and_hazards.md section 3; log 3). -/
def Obligations.BootFetchesFirstTwoBytes : Prop :=
  ∀ (s : State) (font : Font) (hi lo : Byte) (rest : List Byte) (w : Word),
    rest.length + 2 ≤ 3584 → w.toNat = hi.toNat * 256 + lo.toNat →
    ∃ t, (s.initCore font).loadRom (hi :: lo :: rest) = .next t ∧ t.pc = 0x200#16 ∧ fetches t w

/-- The transitions of `PHASE`: `initialize` gives INIT; a load INIT to RUN or, too large, INIT; a step RUN to
RUN or FAULT and FAULT to FAULT; `setKey` none; nothing else (10_state.md section 9; decision D20; log 3). -/
def Obligations.PhaseTransitions : Prop :=
  ∀ (op : HostOp) (s t : State), op.apply s = .next t →
    (∃ font, op = .initCore font ∧ t.phase = .init) ∨
    (∃ bytes, op = .loadRom bytes ∧ s.phase = .init ∧
      t.phase = if bytes.length ≤ 3584 then .run else .init) ∨
    (∃ index pressed, op = .setKey index pressed ∧ t.phase = s.phase) ∨
    (op = .step ∧ s.phase = .run ∧ (t.phase = .run ∨ t.phase = .fault)) ∨
    (op = .step ∧ s.phase = .fault ∧ t.phase = .fault)
end

