-- ==== Sys2Proof/Laws/Encode.lean ====
section
/-! SUPPORT. The decode fields of a word put together from its row's match value and its operand fields. -/

namespace Sys2Proof

/-! ### Each field of an or-ed word is the or of the fields -/

@[simp] theorem fieldClass_or (a b : Word) : fieldClass (a ||| b) = fieldClass a ||| fieldClass b := by
  simp [fieldClass, BitVec.extractLsb'_or]

@[simp] theorem fieldX_or (a b : Word) : fieldX (a ||| b) = fieldX a ||| fieldX b := by
  simp [fieldX, BitVec.extractLsb'_or]

@[simp] theorem fieldY_or (a b : Word) : fieldY (a ||| b) = fieldY a ||| fieldY b := by
  simp [fieldY, BitVec.extractLsb'_or]

@[simp] theorem fieldN_or (a b : Word) : fieldN (a ||| b) = fieldN a ||| fieldN b := by
  simp [fieldN, BitVec.extractLsb'_or]

@[simp] theorem fieldNN_or (a b : Word) : fieldNN (a ||| b) = fieldNN a ||| fieldNN b := by
  simp [fieldNN, BitVec.extractLsb'_or]

@[simp] theorem fieldNNN_or (a b : Word) : fieldNNN (a ||| b) = fieldNNN a ||| fieldNNN b := by
  simp [fieldNNN, BitVec.extractLsb'_or]

/-! ### The fields of each operand in its place -/

section
variable (x : Reg)

@[simp] theorem fieldClass_placeX : fieldClass (placeX x) = 0#4 := by revert x; decide
@[simp] theorem fieldX_placeX : fieldX (placeX x) = x := by revert x; decide
@[simp] theorem fieldY_placeX : fieldY (placeX x) = 0#4 := by revert x; decide
@[simp] theorem fieldN_placeX : fieldN (placeX x) = 0#4 := by revert x; decide
@[simp] theorem fieldNN_placeX : fieldNN (placeX x) = 0#8 := by revert x; decide

@[simp] theorem fieldClass_placeY : fieldClass (placeY x) = 0#4 := by revert x; decide
@[simp] theorem fieldX_placeY : fieldX (placeY x) = 0#4 := by revert x; decide
@[simp] theorem fieldY_placeY : fieldY (placeY x) = x := by revert x; decide
@[simp] theorem fieldN_placeY : fieldN (placeY x) = 0#4 := by revert x; decide

@[simp] theorem fieldClass_placeN : fieldClass (x.setWidth 16) = 0#4 := by revert x; decide
@[simp] theorem fieldX_placeN : fieldX (x.setWidth 16) = 0#4 := by revert x; decide
@[simp] theorem fieldY_placeN : fieldY (x.setWidth 16) = 0#4 := by revert x; decide
@[simp] theorem fieldN_placeN : fieldN (x.setWidth 16) = x := by revert x; decide
end

section
variable (nn : Byte)

@[simp] theorem fieldClass_placeNN : fieldClass (nn.setWidth 16) = 0#4 := by
  revert nn; decide

@[simp] theorem fieldX_placeNN : fieldX (nn.setWidth 16) = 0#4 := by
  revert nn; decide

@[simp] theorem fieldNN_placeNN : fieldNN (nn.setWidth 16) = nn := by
  revert nn; decide
end

section
variable (nnn : Addr12)

@[simp] theorem fieldClass_placeNNN : fieldClass (nnn.setWidth 16) = 0#4 := by
  ext k hk; simp [fieldClass]

@[simp] theorem fieldNNN_placeNNN : fieldNNN (nnn.setWidth 16) = nnn := by
  ext k hk; simp [fieldNNN, hk]; omega
end

/-! ### The two bytes of a word -/

@[simp] theorem wordOfBytes_high_low (w : Word) : wordOfBytes (highByte w) (lowByte w) = w := by
  apply BitVec.eq_of_getLsbD_eq
  intro k hk
  simp only [wordOfBytes, highByte, lowByte, BitVec.getLsbD_append, BitVec.getLsbD_extractLsb']
  by_cases h : k < 8
  · simp [h]
  · simp [h, show k - 8 < 8 by omega, show 8 + (k - 8) = k by omega]

theorem toNat_wordOfBytes (hi lo : Byte) : (wordOfBytes hi lo).toNat = hi.toNat * 256 + lo.toNat := by
  have := lo.isLt
  rw [wordOfBytes, BitVec.toNat_append, ← Nat.shiftLeft_add_eq_or_of_lt this, Nat.shiftLeft_eq]

/-! ### Operands lie outside the mask of their format (30_encoding.md R92) -/

theorem or_and_of_parts {m o k : Word} (hm : m &&& k = m) (ho : o &&& k = 0#16) : (m ||| o) &&& k = m := by
  rw [BitVec.and_comm, BitVec.and_or_distrib_left, BitVec.and_comm k m, BitVec.and_comm k o, hm, ho]
  simp

theorem placeX_and (x : Reg) : placeX x &&& 0xF0FF#16 = 0#16 := by revert x; decide

theorem placeXY_and (x y : Reg) : (placeX x ||| placeY y) &&& 0xF00F#16 = 0#16 := by
  revert x y; decide

theorem placeXYN_and (x y n : Reg) : (placeX x ||| placeY y ||| n.setWidth 16) &&& 0xF000#16 = 0#16 := by
  have h1 : ∀ x : Reg, 0xF000#16 &&& placeX x = 0#16 := by decide
  have h2 : ∀ y : Reg, 0xF000#16 &&& placeY y = 0#16 := by decide
  have h3 : ∀ n : Reg, 0xF000#16 &&& n.setWidth 16 = 0#16 := by decide
  rw [BitVec.and_comm, BitVec.and_or_distrib_left, BitVec.and_or_distrib_left, h1, h2, h3]; rfl

theorem placeXNN_and (x : Reg) (nn : Byte) : (placeX x ||| nn.setWidth 16) &&& 0xF000#16 = 0#16 := by
  have h1 : ∀ x : Reg, 0xF000#16 &&& placeX x = 0#16 := by decide
  have h2 : ∀ nn : Byte, 0xF000#16 &&& nn.setWidth 16 = 0#16 := by decide
  rw [BitVec.and_comm, BitVec.and_or_distrib_left, h1, h2]; rfl

theorem placeNNN_and (nnn : Addr12) : nnn.setWidth 16 &&& 0xF000#16 = 0#16 := by
  apply BitVec.eq_of_getLsbD_eq
  intro k hk
  simp only [BitVec.getLsbD_and, BitVec.getLsbD_setWidth]
  interval_cases k <;> simp

end Sys2Proof
end

