-- ==== Sys2Proof/Laws/Memory.lean ====
section
/-! SUPPORT. What every memory operation does: reads after loads and writes, the canonical form kept, and when a range of byte accesses faults. -/

namespace Sys2Proof.Machine

/-! ### Reads -/

theorem Memory.read_append_of_not_mem (m1 m2 : Memory) (a : Nat) (h : ∀ c ∈ m1, c.1 ≠ a) :
    Memory.read (m1 ++ m2) a = Memory.read m2 a := by
  induction m1 with
  | nil => rfl
  | cons c m ih =>
    obtain ⟨b, v⟩ := c
    have hb : b ≠ a := h (b, v) (by simp)
    simp only [List.cons_append, Memory.read, hb, if_false]
    exact ih fun c hc => h c (by simp [hc])

theorem Memory.read_of_not_mem (m : Memory) (a : Nat) (h : ∀ c ∈ m, c.1 ≠ a) :
    Memory.read m a = Memory.unlisted a := by
  simpa [Memory.read] using Memory.read_append_of_not_mem m [] a h

/-- Dropping pairs of other addresses does not change a read. -/
theorem Memory.read_filter (p : Host.Cell → Bool) (m : Memory) (a : Nat) (h : ∀ c : Host.Cell, c.1 = a → p c) :
    Memory.read (m.filter p) a = Memory.read m a := by
  induction m with
  | nil => rfl
  | cons c m ih =>
    obtain ⟨b, v⟩ := c
    by_cases hb : b = a
    · rw [List.filter_cons_of_pos (h (b, v) hb)]
      simp [Memory.read, hb]
    · by_cases hp : p (b, v)
      · rw [List.filter_cons_of_pos hp]; simp [Memory.read, hb, ih]
      · rw [List.filter_cons_of_neg hp]; simp [Memory.read, hb, ih]

theorem Memory.mem_cells {a : Nat} {bs : List Byte} {c : Host.Cell} (h : c ∈ Memory.cells a bs) :
    a ≤ c.1 ∧ c.1 < a + bs.length ∧ c.2 ≠ Memory.unlisted c.1 := by
  induction bs generalizing a with
  | nil => simp [Memory.cells] at h
  | cons b bs ih =>
    simp only [Memory.cells] at h
    split at h
    · obtain ⟨h1, h2, h3⟩ := ih h
      exact ⟨by omega, by simp only [List.length_cons]; omega, h3⟩
    · rename_i hne
      rcases List.mem_cons.mp h with rfl | h
      · exact ⟨Nat.le_refl _, by simp, hne⟩
      · obtain ⟨h1, h2, h3⟩ := ih h
        exact ⟨by omega, by simp only [List.length_cons]; omega, h3⟩

theorem Memory.read_cells (a : Nat) (bs : List Byte) (m : Memory) (k : Nat) (hk : k < bs.length)
    (hm : ∀ c ∈ m, c.1 ≠ a + k) :
    Memory.read (Memory.cells a bs ++ m) (a + k) = bs[k] := by
  induction bs generalizing a k with
  | nil => simp at hk
  | cons b bs ih =>
    cases k with
    | zero =>
      simp only [Memory.cells, Nat.add_zero, List.getElem_cons_zero] at hm ⊢
      split
      · rename_i heq
        rw [Memory.read_append_of_not_mem _ _ _ fun c hc => by have := (Memory.mem_cells hc).1; omega,
          Memory.read_of_not_mem _ _ hm, heq]
      · simp [Memory.read]
    | succ k =>
      have hk' : k < bs.length := by simpa using hk
      have hadd : a + (k + 1) = a + 1 + k := by omega
      have step := ih (a + 1) k hk' (by rw [← hadd]; exact hm)
      simp only [Memory.cells, List.getElem_cons_succ, hadd]
      split
      · exact step
      · have hne : a ≠ a + 1 + k := by omega
        simp only [List.cons_append, Memory.read, hne, if_false]
        exact step

/-- What a read gives after a load: the loaded byte inside the loaded range, the old byte outside. -/
theorem Memory.read_load (m : Memory) (a : Nat) (bs : List Byte) (b : Nat) :
    (m.load a bs).read b = if h : a ≤ b ∧ b < a + bs.length then bs[b - a]'(by omega) else m.read b := by
  unfold Memory.load
  rw [List.append_assoc]
  split
  · rename_i h
    rw [Memory.read_append_of_not_mem _ _ _ fun c hc => by
      have := (List.mem_filter.mp hc).2; simp at this; omega]
    obtain ⟨k, rfl⟩ : ∃ k, b = a + k := ⟨b - a, by omega⟩
    rw [Memory.read_cells a bs _ k (by omega) fun c hc => by
      have := (List.mem_filter.mp hc).2; simp at this; omega]
    simp
  · rename_i h
    by_cases hlt : b < a
    · have hrest : ∀ c ∈ Memory.cells a bs ++ m.filter (fun c => decide (a + bs.length ≤ c.1)), c.1 ≠ b := by
        intro c hc
        rcases List.mem_append.mp hc with hc | hc
        · have := (Memory.mem_cells hc).1; omega
        · have := (List.mem_filter.mp hc).2; simp at this; omega
      rw [← Memory.read_filter (fun c => decide (c.1 < a)) m b fun c hc => by simp [hc, hlt]]
      induction m.filter (fun c => decide (c.1 < a)) with
      | nil => simpa [Memory.read] using Memory.read_of_not_mem _ b hrest
      | cons c m ih => obtain ⟨d, v⟩ := c; simp only [List.cons_append, Memory.read]; split <;> simp_all
    · rw [Memory.read_append_of_not_mem _ _ _ fun c hc => by
        have := (List.mem_filter.mp hc).2; simp at this; omega,
        Memory.read_append_of_not_mem _ _ _ fun c hc => by have := (Memory.mem_cells hc).2.1; omega]
      exact Memory.read_filter _ m b fun c hc => by simp; omega

/-- What a read gives after a write. -/
@[simp] theorem Memory.read_write (m : Memory) (a : Nat) (v : Byte) (b : Nat) :
    (m.write a v).read b = if a = b then v else m.read b := by
  unfold Memory.write
  rw [Memory.read_load]
  by_cases h : a = b
  · subst h; simp
  · have : ¬(a ≤ b ∧ b < a + [v].length) := by simp only [List.length_singleton]; omega
    simp only [this, dite_false, h, if_false]

/-! ### The canonical form -/

theorem Memory.wfFrom_mono {lo lo' : Nat} {m : Memory} (hle : lo ≤ lo') (h : Memory.wfFrom lo' m) :
    Memory.wfFrom lo m := by
  cases m with
  | nil => rfl
  | cons c m =>
    simp only [Memory.wfFrom, Bool.and_eq_true, decide_eq_true_eq] at h ⊢
    exact ⟨⟨⟨by omega, h.1.1.2⟩, h.1.2⟩, h.2⟩

/-- Two canonical parts, the first below `mid` and the second from `mid` on, make a canonical memory. -/
theorem Memory.wfFrom_append {lo mid : Nat} {m1 m2 : Memory} (h1 : Memory.wfFrom lo m1)
    (hlt : ∀ c ∈ m1, c.1 < mid) (h2 : Memory.wfFrom mid m2) (hle : lo ≤ mid) :
    Memory.wfFrom lo (m1 ++ m2) := by
  induction m1 generalizing lo with
  | nil => exact Memory.wfFrom_mono hle h2
  | cons c m ih =>
    simp only [Memory.wfFrom, List.cons_append, Bool.and_eq_true, decide_eq_true_eq] at h1 ⊢
    exact ⟨h1.1, ih h1.2 (fun c hc => hlt c (by simp [hc])) (hlt c (by simp))⟩

/-- Every pair of a canonical memory lies in the address space, from `lo` on. -/
theorem Memory.wfFrom_bounds {lo : Nat} {m : Memory} (h : Memory.wfFrom lo m) :
    ∀ c ∈ m, lo ≤ c.1 ∧ c.1 ≤ Config.addrMax := by
  induction m generalizing lo with
  | nil => simp
  | cons d m ih =>
    simp only [Memory.wfFrom, Bool.and_eq_true, decide_eq_true_eq] at h
    intro c hc
    rcases List.mem_cons.mp hc with rfl | hc
    · exact h.1.1
    · exact ⟨by have := ih h.2 c hc; omega, (ih h.2 c hc).2⟩

theorem Memory.wfFrom_filter {lo : Nat} {m : Memory} (p : Host.Cell → Bool) (h : Memory.wfFrom lo m) :
    Memory.wfFrom lo (m.filter p) := by
  induction m generalizing lo with
  | nil => rfl
  | cons c m ih =>
    simp only [Memory.wfFrom, Bool.and_eq_true, decide_eq_true_eq] at h
    by_cases hp : p c
    · rw [List.filter_cons_of_pos hp]
      simp only [Memory.wfFrom, Bool.and_eq_true, decide_eq_true_eq]
      exact ⟨h.1, ih h.2⟩
    · rw [List.filter_cons_of_neg hp]
      exact Memory.wfFrom_mono (by omega) (ih h.2)

/-- A canonical memory whose pairs all lie at or above `lo'` is canonical from `lo'` on. -/
theorem Memory.wfFrom_raise {lo lo' : Nat} {m : Memory} (h : Memory.wfFrom lo m) (hall : ∀ c ∈ m, lo' ≤ c.1) :
    Memory.wfFrom lo' m := by
  cases m with
  | nil => rfl
  | cons c m =>
    simp only [Memory.wfFrom, Bool.and_eq_true, decide_eq_true_eq] at h ⊢
    exact ⟨⟨⟨hall c (by simp), h.1.1.2⟩, h.1.2⟩, h.2⟩

theorem Memory.wfFrom_cells (a : Nat) (bs : List Byte) (h : a + bs.length ≤ Config.addrMax + 1) :
    Memory.wfFrom a (Memory.cells a bs) := by
  induction bs generalizing a with
  | nil => rfl
  | cons b bs ih =>
    simp only [List.length_cons] at h
    have hrest := ih (a + 1) (by omega)
    simp only [Memory.cells]
    split
    · exact Memory.wfFrom_mono (by omega) hrest
    · rename_i hne
      simp only [Memory.wfFrom, Bool.and_eq_true, decide_eq_true_eq, bne_iff_ne]
      exact ⟨⟨⟨Nat.le_refl _, by omega⟩, hne⟩, hrest⟩

/-- A load inside the address space keeps the canonical form. -/
theorem Memory.wf_load {m : Memory} (hm : m.wf) (a : Nat) (bs : List Byte)
    (h : a + bs.length ≤ Config.addrMax + 1) : (m.load a bs).wf := by
  unfold Memory.wf Memory.load at *
  rw [List.append_assoc]
  refine Memory.wfFrom_append (mid := a) (Memory.wfFrom_filter _ hm) (fun c hc => ?_) ?_ (Nat.zero_le _)
  · simpa using (List.mem_filter.mp hc).2
  · refine Memory.wfFrom_append (mid := a + bs.length) (Memory.wfFrom_cells a bs h)
      (fun c hc => (Memory.mem_cells hc).2.1) ?_ (by omega)
    exact Memory.wfFrom_raise (Memory.wfFrom_filter _ hm) fun c hc => by
      simpa using (List.mem_filter.mp hc).2

/-- A write inside the address space keeps the canonical form. -/
theorem Memory.wf_write {m : Memory} (hm : m.wf) (a : Nat) (b : Byte) (h : a ≤ Config.addrMax) :
    (m.write a b).wf :=
  Memory.wf_load hm a [b] (by simpa using h)

theorem State.reset_mem_wf : State.reset.mem.wf := rfl

/-! ### Checked accesses (20_memory.md R66, R67) -/

theorem memRead_ok {m : Memory} {a : Nat} (h : a ≤ Config.addrMax) : memRead m a = .ok (m.read a) := by
  simp only [memRead]; rw [if_neg (by omega)]

theorem memRead_oob {m : Memory} {a : Nat} (h : Config.addrMax < a) : memRead m a = .error ⟨.memOob, a⟩ := by
  simp only [memRead]; rw [if_pos h]

theorem memWrite_ok {m : Memory} {a : Nat} {b : Byte} (h1 : Config.fontSize ≤ a) (h2 : a ≤ Config.addrMax) :
    memWrite m a b = .ok (m.write a b) := by
  simp only [memWrite]; rw [if_neg (by omega), if_neg (by omega)]

theorem memWrite_oob {m : Memory} {a : Nat} {b : Byte} (h : Config.addrMax < a) :
    memWrite m a b = .error ⟨.memOob, a⟩ := by
  simp only [memWrite]; rw [if_pos h]

theorem memWrite_font {m : Memory} {a : Nat} {b : Byte} (h : a < Config.fontSize) :
    memWrite m a b = .error ⟨.fontWrite, a⟩ := by
  have : a ≤ Config.addrMax := by simp only [Config.addrMax]; simp only [Config.fontSize] at h; omega
  simp only [memWrite]; rw [if_neg (by omega), if_pos h]

/-- A range of reads inside the address space gives the bytes in order. -/
theorem memReadRange_ok {m : Memory} {a n : Nat} (h : n = 0 ∨ a + n ≤ Config.addrMax + 1) :
    memReadRange m a n = .ok ((List.range n).map fun k => m.read (a + k)) := by
  induction n generalizing a with
  | zero => rfl
  | succ n ih =>
    have h' : a + (n + 1) ≤ Config.addrMax + 1 := by omega
    rw [memReadRange, memRead_ok (by omega), ih (a := a + 1) (by omega)]
    simp only [List.range_succ_eq_map, List.map_cons, List.map_map, Nat.add_zero]
    congr 2
    refine List.map_congr_left fun k _ => ?_
    simp [Nat.add_assoc, Nat.add_comm 1 k]

/-- A range of reads that leaves the address space faults at its lowest address above 0xFFF. -/
theorem memReadRange_oob {m : Memory} {a n : Nat} (h0 : 0 < n) (h : Config.addrMax + 1 < a + n) :
    memReadRange m a n = .error ⟨.memOob, max a (Config.addrMax + 1)⟩ := by
  induction n generalizing a with
  | zero => omega
  | succ n ih =>
    rw [memReadRange]
    by_cases ha : a ≤ Config.addrMax
    · rw [memRead_ok ha, ih (a := a + 1) (by omega) (by omega), Nat.max_eq_right (by omega), Nat.max_eq_right (by omega)]
    · rw [memRead_oob (by omega), Nat.max_eq_left (by omega)]

/-- A range of stores into RAM puts exactly its bytes. -/
theorem memWriteRange_ok {m : Memory} {a : Nat} {bs : List Byte} (h1 : Config.fontSize ≤ a)
    (h2 : bs = [] ∨ a + bs.length ≤ Config.addrMax + 1) :
    ∃ m', memWriteRange m a bs = .ok m' ∧ (m.wf → m'.wf) ∧
      ∀ b, m'.read b = if h : a ≤ b ∧ b < a + bs.length then bs[b - a]'(by omega) else m.read b := by
  induction bs generalizing m a with
  | nil => exact ⟨m, rfl, id, fun b => by simp⟩
  | cons v bs ih =>
    have h2' : a + (bs.length + 1) ≤ Config.addrMax + 1 := by simpa using h2
    obtain ⟨m', he, hwf, hr⟩ := ih (m := m.write a v) (a := a + 1) (by omega) (Or.inr (by omega))
    refine ⟨m', ?_, fun hm => hwf (Memory.wf_write hm a v (by omega)), fun b => ?_⟩
    · rw [memWriteRange, memWrite_ok h1 (by omega)]; exact he
    · rw [hr, Memory.read_write]
      by_cases hb : a = b
      · subst hb; simp
      · by_cases hin : a + 1 ≤ b ∧ b < a + 1 + bs.length
        · have hin' : a ≤ b ∧ b < a + (v :: bs).length := by simp only [List.length_cons]; omega
          rw [dif_pos hin, dif_pos hin']
          have : b - a = (b - (a + 1)) + 1 := by omega
          simp only [this, List.getElem_cons_succ]
        · have hin' : ¬(a ≤ b ∧ b < a + (v :: bs).length) := by simp only [List.length_cons]; omega
          rw [dif_neg hin, dif_neg hin', if_neg hb]

/-- A range of stores that leaves the address space faults at its lowest address above 0xFFF. -/
theorem memWriteRange_oob {m : Memory} {a : Nat} {bs : List Byte} (h1 : Config.fontSize ≤ a)
    (h0 : 0 < bs.length) (h : Config.addrMax + 1 < a + bs.length) :
    memWriteRange m a bs = .error ⟨.memOob, max a (Config.addrMax + 1)⟩ := by
  induction bs generalizing m a with
  | nil => simp at h0
  | cons v bs ih =>
    simp only [List.length_cons] at h
    rw [memWriteRange]
    by_cases ha : a ≤ Config.addrMax
    · rw [memWrite_ok h1 ha]
      simp only
      rw [ih (a := a + 1) (by omega) (by omega) (by omega), Nat.max_eq_right (by omega), Nat.max_eq_right (by omega)]
    · rw [memWrite_oob (by omega), Nat.max_eq_left (by omega)]

/-- A range of stores that begins in the font region faults at its first address. -/
theorem memWriteRange_font {m : Memory} {a : Nat} {bs : List Byte} (h1 : a < Config.fontSize) (h0 : bs ≠ []) :
    memWriteRange m a bs = .error ⟨.fontWrite, a⟩ := by
  cases bs with
  | nil => exact absurd rfl h0
  | cons v bs => rw [memWriteRange, memWrite_font h1]

/-- Every outcome of a range of stores: RAM written, or one of the two faults. -/
theorem memWriteRange_cases {m : Memory} {a : Nat} {bs : List Byte} (h0 : bs ≠ []) :
    (Config.fontSize ≤ a ∧ a + bs.length ≤ Config.addrMax + 1 ∧ ∃ m', memWriteRange m a bs = .ok m') ∨
    memWriteRange m a bs = .error ⟨.memOob, max a (Config.addrMax + 1)⟩ ∨
    memWriteRange m a bs = .error ⟨.fontWrite, a⟩ := by
  have hpos : 0 < bs.length := List.length_pos_iff.mpr h0
  by_cases hf : a < Config.fontSize
  · exact Or.inr (Or.inr (memWriteRange_font hf h0))
  · by_cases hb : a + bs.length ≤ Config.addrMax + 1
    · obtain ⟨m', he, -⟩ := memWriteRange_ok (m := m) (a := a) (bs := bs) (by omega) (Or.inr hb)
      exact Or.inl ⟨by omega, hb, m', he⟩
    · exact Or.inr (Or.inl (memWriteRange_oob (by omega) hpos (by omega)))

/-- Every outcome of a range of reads: the bytes, or the one fault. -/
theorem memReadRange_cases (m : Memory) (a n : Nat) :
    ((n = 0 ∨ a + n ≤ Config.addrMax + 1) ∧
      memReadRange m a n = .ok ((List.range n).map fun k => m.read (a + k))) ∨
    (0 < n ∧ Config.addrMax + 1 < a + n ∧
      memReadRange m a n = .error ⟨.memOob, max a (Config.addrMax + 1)⟩) := by
  by_cases h : n = 0 ∨ a + n ≤ Config.addrMax + 1
  · exact Or.inl ⟨h, memReadRange_ok h⟩
  · exact Or.inr ⟨by omega, by omega, memReadRange_oob (by omega) (by omega)⟩

end Sys2Proof.Machine
end

