-- ==== Sys2Proof/Laws/State.lean ====
section
/-! SUPPORT. One lemma per field per update of State, each true by rfl, so that no later proof unfolds a record update. -/

namespace Sys2Proof.Machine

/-! ### `raiseFault` (60_exceptions.md R256) -/

@[simp] theorem raiseFault_v (t : Trap) (s : State) : (raiseFault t s).v = s.v := rfl
@[simp] theorem raiseFault_idx (t : Trap) (s : State) : (raiseFault t s).idx = s.idx := rfl
@[simp] theorem raiseFault_pc (t : Trap) (s : State) : (raiseFault t s).pc = s.pc := rfl
@[simp] theorem raiseFault_sp (t : Trap) (s : State) : (raiseFault t s).sp = s.sp := rfl
@[simp] theorem raiseFault_stk (t : Trap) (s : State) : (raiseFault t s).stk = s.stk := rfl
@[simp] theorem raiseFault_dt (t : Trap) (s : State) : (raiseFault t s).dt = s.dt := rfl
@[simp] theorem raiseFault_st (t : Trap) (s : State) : (raiseFault t s).st = s.st := rfl
@[simp] theorem raiseFault_fb (t : Trap) (s : State) : (raiseFault t s).fb = s.fb := rfl
@[simp] theorem raiseFault_keys (t : Trap) (s : State) : (raiseFault t s).keys = s.keys := rfl
@[simp] theorem raiseFault_mem (t : Trap) (s : State) : (raiseFault t s).mem = s.mem := rfl
@[simp] theorem raiseFault_phase (t : Trap) (s : State) : (raiseFault t s).phase = .fault := rfl
@[simp] theorem raiseFault_fcause (t : Trap) (s : State) : (raiseFault t s).fcause = t.cause.code := rfl
@[simp] theorem raiseFault_faddr (t : Trap) (s : State) : (raiseFault t s).faddr = BitVec.ofNat 32 t.info := rfl
@[simp] theorem raiseFault_redraw (t : Trap) (s : State) : (raiseFault t s).redraw = s.redraw := rfl
@[simp] theorem raiseFault_diag (t : Trap) (s : State) : (raiseFault t s).diag = s.diag := rfl
@[simp] theorem raiseFault_draws (t : Trap) (s : State) : (raiseFault t s).draws = s.draws := rfl
@[simp] theorem raiseFault_reg (t : Trap) (s : State) (y : Reg) : (raiseFault t s).reg y = s.reg y := rfl
@[simp] theorem raiseFault_slot (t : Trap) (s : State) (k : Nat) : (raiseFault t s).slot k = s.slot k := rfl
@[simp] theorem raiseFault_cell (t : Trap) (s : State) (k : Nat) : (raiseFault t s).cell k = s.cell k := rfl
@[simp] theorem raiseFault_key (t : Trap) (s : State) (k : Nat) : (raiseFault t s).key k = s.key k := rfl

/-! ### `State.setReg` (its own register: Laws/Regs.lean) -/

@[simp] theorem setReg_idx (x : Reg) (b : Byte) (s : State) : (s.setReg x b).idx = s.idx := rfl
@[simp] theorem setReg_pc (x : Reg) (b : Byte) (s : State) : (s.setReg x b).pc = s.pc := rfl
@[simp] theorem setReg_sp (x : Reg) (b : Byte) (s : State) : (s.setReg x b).sp = s.sp := rfl
@[simp] theorem setReg_stk (x : Reg) (b : Byte) (s : State) : (s.setReg x b).stk = s.stk := rfl
@[simp] theorem setReg_dt (x : Reg) (b : Byte) (s : State) : (s.setReg x b).dt = s.dt := rfl
@[simp] theorem setReg_st (x : Reg) (b : Byte) (s : State) : (s.setReg x b).st = s.st := rfl
@[simp] theorem setReg_fb (x : Reg) (b : Byte) (s : State) : (s.setReg x b).fb = s.fb := rfl
@[simp] theorem setReg_keys (x : Reg) (b : Byte) (s : State) : (s.setReg x b).keys = s.keys := rfl
@[simp] theorem setReg_mem (x : Reg) (b : Byte) (s : State) : (s.setReg x b).mem = s.mem := rfl
@[simp] theorem setReg_phase (x : Reg) (b : Byte) (s : State) : (s.setReg x b).phase = s.phase := rfl
@[simp] theorem setReg_fcause (x : Reg) (b : Byte) (s : State) : (s.setReg x b).fcause = s.fcause := rfl
@[simp] theorem setReg_faddr (x : Reg) (b : Byte) (s : State) : (s.setReg x b).faddr = s.faddr := rfl
@[simp] theorem setReg_redraw (x : Reg) (b : Byte) (s : State) : (s.setReg x b).redraw = s.redraw := rfl
@[simp] theorem setReg_diag (x : Reg) (b : Byte) (s : State) : (s.setReg x b).diag = s.diag := rfl
@[simp] theorem setReg_draws (x : Reg) (b : Byte) (s : State) : (s.setReg x b).draws = s.draws := rfl
@[simp] theorem setReg_slot (x : Reg) (b : Byte) (s : State) (k : Nat) : (s.setReg x b).slot k = s.slot k := rfl
@[simp] theorem setReg_cell (x : Reg) (b : Byte) (s : State) (k : Nat) : (s.setReg x b).cell k = s.cell k := rfl
@[simp] theorem setReg_key (x : Reg) (b : Byte) (s : State) (k : Nat) : (s.setReg x b).key k = s.key k := rfl

/-! ### `State.setIdx` -/

@[simp] theorem setIdx_v (w : Word) (s : State) : (s.setIdx w).v = s.v := rfl
@[simp] theorem setIdx_idx (w : Word) (s : State) : (s.setIdx w).idx = w := rfl
@[simp] theorem setIdx_pc (w : Word) (s : State) : (s.setIdx w).pc = s.pc := rfl
@[simp] theorem setIdx_sp (w : Word) (s : State) : (s.setIdx w).sp = s.sp := rfl
@[simp] theorem setIdx_stk (w : Word) (s : State) : (s.setIdx w).stk = s.stk := rfl
@[simp] theorem setIdx_dt (w : Word) (s : State) : (s.setIdx w).dt = s.dt := rfl
@[simp] theorem setIdx_st (w : Word) (s : State) : (s.setIdx w).st = s.st := rfl
@[simp] theorem setIdx_fb (w : Word) (s : State) : (s.setIdx w).fb = s.fb := rfl
@[simp] theorem setIdx_keys (w : Word) (s : State) : (s.setIdx w).keys = s.keys := rfl
@[simp] theorem setIdx_mem (w : Word) (s : State) : (s.setIdx w).mem = s.mem := rfl
@[simp] theorem setIdx_phase (w : Word) (s : State) : (s.setIdx w).phase = s.phase := rfl
@[simp] theorem setIdx_fcause (w : Word) (s : State) : (s.setIdx w).fcause = s.fcause := rfl
@[simp] theorem setIdx_faddr (w : Word) (s : State) : (s.setIdx w).faddr = s.faddr := rfl
@[simp] theorem setIdx_redraw (w : Word) (s : State) : (s.setIdx w).redraw = s.redraw := rfl
@[simp] theorem setIdx_diag (w : Word) (s : State) : (s.setIdx w).diag = s.diag := rfl
@[simp] theorem setIdx_draws (w : Word) (s : State) : (s.setIdx w).draws = s.draws := rfl
@[simp] theorem setIdx_reg (w : Word) (s : State) (y : Reg) : (s.setIdx w).reg y = s.reg y := rfl
@[simp] theorem setIdx_slot (w : Word) (s : State) (k : Nat) : (s.setIdx w).slot k = s.slot k := rfl
@[simp] theorem setIdx_cell (w : Word) (s : State) (k : Nat) : (s.setIdx w).cell k = s.cell k := rfl
@[simp] theorem setIdx_key (w : Word) (s : State) (k : Nat) : (s.setIdx w).key k = s.key k := rfl

/-! ### `State.setPc` -/

@[simp] theorem setPc_v (w : Word) (s : State) : (s.setPc w).v = s.v := rfl
@[simp] theorem setPc_idx (w : Word) (s : State) : (s.setPc w).idx = s.idx := rfl
@[simp] theorem setPc_pc (w : Word) (s : State) : (s.setPc w).pc = w := rfl
@[simp] theorem setPc_sp (w : Word) (s : State) : (s.setPc w).sp = s.sp := rfl
@[simp] theorem setPc_stk (w : Word) (s : State) : (s.setPc w).stk = s.stk := rfl
@[simp] theorem setPc_dt (w : Word) (s : State) : (s.setPc w).dt = s.dt := rfl
@[simp] theorem setPc_st (w : Word) (s : State) : (s.setPc w).st = s.st := rfl
@[simp] theorem setPc_fb (w : Word) (s : State) : (s.setPc w).fb = s.fb := rfl
@[simp] theorem setPc_keys (w : Word) (s : State) : (s.setPc w).keys = s.keys := rfl
@[simp] theorem setPc_mem (w : Word) (s : State) : (s.setPc w).mem = s.mem := rfl
@[simp] theorem setPc_phase (w : Word) (s : State) : (s.setPc w).phase = s.phase := rfl
@[simp] theorem setPc_fcause (w : Word) (s : State) : (s.setPc w).fcause = s.fcause := rfl
@[simp] theorem setPc_faddr (w : Word) (s : State) : (s.setPc w).faddr = s.faddr := rfl
@[simp] theorem setPc_redraw (w : Word) (s : State) : (s.setPc w).redraw = s.redraw := rfl
@[simp] theorem setPc_diag (w : Word) (s : State) : (s.setPc w).diag = s.diag := rfl
@[simp] theorem setPc_draws (w : Word) (s : State) : (s.setPc w).draws = s.draws := rfl
@[simp] theorem setPc_reg (w : Word) (s : State) (y : Reg) : (s.setPc w).reg y = s.reg y := rfl
@[simp] theorem setPc_slot (w : Word) (s : State) (k : Nat) : (s.setPc w).slot k = s.slot k := rfl
@[simp] theorem setPc_cell (w : Word) (s : State) (k : Nat) : (s.setPc w).cell k = s.cell k := rfl
@[simp] theorem setPc_key (w : Word) (s : State) (k : Nat) : (s.setPc w).key k = s.key k := rfl

/-! ### `State.advance` -/

@[simp] theorem advance_v (s : State) : s.advance.v = s.v := rfl
@[simp] theorem advance_idx (s : State) : s.advance.idx = s.idx := rfl
@[simp] theorem advance_pc (s : State) : s.advance.pc = s.pc + 2#16 := rfl
@[simp] theorem advance_sp (s : State) : s.advance.sp = s.sp := rfl
@[simp] theorem advance_stk (s : State) : s.advance.stk = s.stk := rfl
@[simp] theorem advance_dt (s : State) : s.advance.dt = s.dt := rfl
@[simp] theorem advance_st (s : State) : s.advance.st = s.st := rfl
@[simp] theorem advance_fb (s : State) : s.advance.fb = s.fb := rfl
@[simp] theorem advance_keys (s : State) : s.advance.keys = s.keys := rfl
@[simp] theorem advance_mem (s : State) : s.advance.mem = s.mem := rfl
@[simp] theorem advance_phase (s : State) : s.advance.phase = s.phase := rfl
@[simp] theorem advance_fcause (s : State) : s.advance.fcause = s.fcause := rfl
@[simp] theorem advance_faddr (s : State) : s.advance.faddr = s.faddr := rfl
@[simp] theorem advance_redraw (s : State) : s.advance.redraw = s.redraw := rfl
@[simp] theorem advance_diag (s : State) : s.advance.diag = s.diag := rfl
@[simp] theorem advance_draws (s : State) : s.advance.draws = s.draws := rfl
@[simp] theorem advance_reg (s : State) (y : Reg) : s.advance.reg y = s.reg y := rfl
@[simp] theorem advance_slot (s : State) (k : Nat) : s.advance.slot k = s.slot k := rfl
@[simp] theorem advance_cell (s : State) (k : Nat) : s.advance.cell k = s.cell k := rfl
@[simp] theorem advance_key (s : State) (k : Nat) : s.advance.key k = s.key k := rfl

/-! ### `State.skipIf` -/

@[simp] theorem skipIf_v (c : Bool) (s : State) : (s.skipIf c).v = s.v := rfl
@[simp] theorem skipIf_idx (c : Bool) (s : State) : (s.skipIf c).idx = s.idx := rfl
@[simp] theorem skipIf_pc (c : Bool) (s : State) : (s.skipIf c).pc = if c then s.pc + 4#16 else s.pc + 2#16 := rfl
@[simp] theorem skipIf_sp (c : Bool) (s : State) : (s.skipIf c).sp = s.sp := rfl
@[simp] theorem skipIf_stk (c : Bool) (s : State) : (s.skipIf c).stk = s.stk := rfl
@[simp] theorem skipIf_dt (c : Bool) (s : State) : (s.skipIf c).dt = s.dt := rfl
@[simp] theorem skipIf_st (c : Bool) (s : State) : (s.skipIf c).st = s.st := rfl
@[simp] theorem skipIf_fb (c : Bool) (s : State) : (s.skipIf c).fb = s.fb := rfl
@[simp] theorem skipIf_keys (c : Bool) (s : State) : (s.skipIf c).keys = s.keys := rfl
@[simp] theorem skipIf_mem (c : Bool) (s : State) : (s.skipIf c).mem = s.mem := rfl
@[simp] theorem skipIf_phase (c : Bool) (s : State) : (s.skipIf c).phase = s.phase := rfl
@[simp] theorem skipIf_fcause (c : Bool) (s : State) : (s.skipIf c).fcause = s.fcause := rfl
@[simp] theorem skipIf_faddr (c : Bool) (s : State) : (s.skipIf c).faddr = s.faddr := rfl
@[simp] theorem skipIf_redraw (c : Bool) (s : State) : (s.skipIf c).redraw = s.redraw := rfl
@[simp] theorem skipIf_diag (c : Bool) (s : State) : (s.skipIf c).diag = s.diag := rfl
@[simp] theorem skipIf_draws (c : Bool) (s : State) : (s.skipIf c).draws = s.draws := rfl
@[simp] theorem skipIf_reg (c : Bool) (s : State) (y : Reg) : (s.skipIf c).reg y = s.reg y := rfl
@[simp] theorem skipIf_slot (c : Bool) (s : State) (k : Nat) : (s.skipIf c).slot k = s.slot k := rfl
@[simp] theorem skipIf_cell (c : Bool) (s : State) (k : Nat) : (s.skipIf c).cell k = s.cell k := rfl
@[simp] theorem skipIf_key (c : Bool) (s : State) (k : Nat) : (s.skipIf c).key k = s.key k := rfl

/-! ### `State.setDt` -/

@[simp] theorem setDt_v (b : Byte) (s : State) : (s.setDt b).v = s.v := rfl
@[simp] theorem setDt_idx (b : Byte) (s : State) : (s.setDt b).idx = s.idx := rfl
@[simp] theorem setDt_pc (b : Byte) (s : State) : (s.setDt b).pc = s.pc := rfl
@[simp] theorem setDt_sp (b : Byte) (s : State) : (s.setDt b).sp = s.sp := rfl
@[simp] theorem setDt_stk (b : Byte) (s : State) : (s.setDt b).stk = s.stk := rfl
@[simp] theorem setDt_dt (b : Byte) (s : State) : (s.setDt b).dt = b := rfl
@[simp] theorem setDt_st (b : Byte) (s : State) : (s.setDt b).st = s.st := rfl
@[simp] theorem setDt_fb (b : Byte) (s : State) : (s.setDt b).fb = s.fb := rfl
@[simp] theorem setDt_keys (b : Byte) (s : State) : (s.setDt b).keys = s.keys := rfl
@[simp] theorem setDt_mem (b : Byte) (s : State) : (s.setDt b).mem = s.mem := rfl
@[simp] theorem setDt_phase (b : Byte) (s : State) : (s.setDt b).phase = s.phase := rfl
@[simp] theorem setDt_fcause (b : Byte) (s : State) : (s.setDt b).fcause = s.fcause := rfl
@[simp] theorem setDt_faddr (b : Byte) (s : State) : (s.setDt b).faddr = s.faddr := rfl
@[simp] theorem setDt_redraw (b : Byte) (s : State) : (s.setDt b).redraw = s.redraw := rfl
@[simp] theorem setDt_diag (b : Byte) (s : State) : (s.setDt b).diag = s.diag := rfl
@[simp] theorem setDt_draws (b : Byte) (s : State) : (s.setDt b).draws = s.draws := rfl
@[simp] theorem setDt_reg (b : Byte) (s : State) (y : Reg) : (s.setDt b).reg y = s.reg y := rfl
@[simp] theorem setDt_slot (b : Byte) (s : State) (k : Nat) : (s.setDt b).slot k = s.slot k := rfl
@[simp] theorem setDt_cell (b : Byte) (s : State) (k : Nat) : (s.setDt b).cell k = s.cell k := rfl
@[simp] theorem setDt_key (b : Byte) (s : State) (k : Nat) : (s.setDt b).key k = s.key k := rfl

/-! ### `State.setSt` -/

@[simp] theorem setSt_v (b : Byte) (s : State) : (s.setSt b).v = s.v := rfl
@[simp] theorem setSt_idx (b : Byte) (s : State) : (s.setSt b).idx = s.idx := rfl
@[simp] theorem setSt_pc (b : Byte) (s : State) : (s.setSt b).pc = s.pc := rfl
@[simp] theorem setSt_sp (b : Byte) (s : State) : (s.setSt b).sp = s.sp := rfl
@[simp] theorem setSt_stk (b : Byte) (s : State) : (s.setSt b).stk = s.stk := rfl
@[simp] theorem setSt_dt (b : Byte) (s : State) : (s.setSt b).dt = s.dt := rfl
@[simp] theorem setSt_st (b : Byte) (s : State) : (s.setSt b).st = b := rfl
@[simp] theorem setSt_fb (b : Byte) (s : State) : (s.setSt b).fb = s.fb := rfl
@[simp] theorem setSt_keys (b : Byte) (s : State) : (s.setSt b).keys = s.keys := rfl
@[simp] theorem setSt_mem (b : Byte) (s : State) : (s.setSt b).mem = s.mem := rfl
@[simp] theorem setSt_phase (b : Byte) (s : State) : (s.setSt b).phase = s.phase := rfl
@[simp] theorem setSt_fcause (b : Byte) (s : State) : (s.setSt b).fcause = s.fcause := rfl
@[simp] theorem setSt_faddr (b : Byte) (s : State) : (s.setSt b).faddr = s.faddr := rfl
@[simp] theorem setSt_redraw (b : Byte) (s : State) : (s.setSt b).redraw = s.redraw := rfl
@[simp] theorem setSt_diag (b : Byte) (s : State) : (s.setSt b).diag = s.diag := rfl
@[simp] theorem setSt_draws (b : Byte) (s : State) : (s.setSt b).draws = s.draws := rfl
@[simp] theorem setSt_reg (b : Byte) (s : State) (y : Reg) : (s.setSt b).reg y = s.reg y := rfl
@[simp] theorem setSt_slot (b : Byte) (s : State) (k : Nat) : (s.setSt b).slot k = s.slot k := rfl
@[simp] theorem setSt_cell (b : Byte) (s : State) (k : Nat) : (s.setSt b).cell k = s.cell k := rfl
@[simp] theorem setSt_key (b : Byte) (s : State) (k : Nat) : (s.setSt b).key k = s.key k := rfl

/-! ### `State.clearOutputs` -/

@[simp] theorem clearOutputs_v (s : State) : s.clearOutputs.v = s.v := rfl
@[simp] theorem clearOutputs_idx (s : State) : s.clearOutputs.idx = s.idx := rfl
@[simp] theorem clearOutputs_pc (s : State) : s.clearOutputs.pc = s.pc := rfl
@[simp] theorem clearOutputs_sp (s : State) : s.clearOutputs.sp = s.sp := rfl
@[simp] theorem clearOutputs_stk (s : State) : s.clearOutputs.stk = s.stk := rfl
@[simp] theorem clearOutputs_dt (s : State) : s.clearOutputs.dt = s.dt := rfl
@[simp] theorem clearOutputs_st (s : State) : s.clearOutputs.st = s.st := rfl
@[simp] theorem clearOutputs_fb (s : State) : s.clearOutputs.fb = s.fb := rfl
@[simp] theorem clearOutputs_keys (s : State) : s.clearOutputs.keys = s.keys := rfl
@[simp] theorem clearOutputs_mem (s : State) : s.clearOutputs.mem = s.mem := rfl
@[simp] theorem clearOutputs_phase (s : State) : s.clearOutputs.phase = s.phase := rfl
@[simp] theorem clearOutputs_fcause (s : State) : s.clearOutputs.fcause = s.fcause := rfl
@[simp] theorem clearOutputs_faddr (s : State) : s.clearOutputs.faddr = s.faddr := rfl
@[simp] theorem clearOutputs_redraw (s : State) : s.clearOutputs.redraw = false := rfl
@[simp] theorem clearOutputs_diag (s : State) : s.clearOutputs.diag = none := rfl
@[simp] theorem clearOutputs_draws (s : State) : s.clearOutputs.draws = s.draws := rfl
@[simp] theorem clearOutputs_reg (s : State) (y : Reg) : s.clearOutputs.reg y = s.reg y := rfl
@[simp] theorem clearOutputs_slot (s : State) (k : Nat) : s.clearOutputs.slot k = s.slot k := rfl
@[simp] theorem clearOutputs_cell (s : State) (k : Nat) : s.clearOutputs.cell k = s.cell k := rfl
@[simp] theorem clearOutputs_key (s : State) (k : Nat) : s.clearOutputs.key k = s.key k := rfl

/-! ### `State.tick` -/

@[simp] theorem tick_v (s : State) : s.tick.v = s.v := rfl
@[simp] theorem tick_idx (s : State) : s.tick.idx = s.idx := rfl
@[simp] theorem tick_pc (s : State) : s.tick.pc = s.pc := rfl
@[simp] theorem tick_sp (s : State) : s.tick.sp = s.sp := rfl
@[simp] theorem tick_stk (s : State) : s.tick.stk = s.stk := rfl
@[simp] theorem tick_dt (s : State) : s.tick.dt = countDown s.dt := rfl
@[simp] theorem tick_st (s : State) : s.tick.st = countDown s.st := rfl
@[simp] theorem tick_fb (s : State) : s.tick.fb = s.fb := rfl
@[simp] theorem tick_keys (s : State) : s.tick.keys = s.keys := rfl
@[simp] theorem tick_mem (s : State) : s.tick.mem = s.mem := rfl
@[simp] theorem tick_phase (s : State) : s.tick.phase = s.phase := rfl
@[simp] theorem tick_fcause (s : State) : s.tick.fcause = s.fcause := rfl
@[simp] theorem tick_faddr (s : State) : s.tick.faddr = s.faddr := rfl
@[simp] theorem tick_redraw (s : State) : s.tick.redraw = s.redraw := rfl
@[simp] theorem tick_diag (s : State) : s.tick.diag = s.diag := rfl
@[simp] theorem tick_draws (s : State) : s.tick.draws = s.draws := rfl
@[simp] theorem tick_reg (s : State) (y : Reg) : s.tick.reg y = s.reg y := rfl
@[simp] theorem tick_slot (s : State) (k : Nat) : s.tick.slot k = s.slot k := rfl
@[simp] theorem tick_cell (s : State) (k : Nat) : s.tick.cell k = s.cell k := rfl
@[simp] theorem tick_key (s : State) (k : Nat) : s.tick.key k = s.key k := rfl

/-! ### `execUnknown` (40_step_cycle.md R125) -/

@[simp] theorem execUnknown_v (w : Word) (s : State) : (execUnknown w s).v = s.v := rfl
@[simp] theorem execUnknown_idx (w : Word) (s : State) : (execUnknown w s).idx = s.idx := rfl
@[simp] theorem execUnknown_pc (w : Word) (s : State) : (execUnknown w s).pc = s.pc + 2#16 := rfl
@[simp] theorem execUnknown_sp (w : Word) (s : State) : (execUnknown w s).sp = s.sp := rfl
@[simp] theorem execUnknown_stk (w : Word) (s : State) : (execUnknown w s).stk = s.stk := rfl
@[simp] theorem execUnknown_dt (w : Word) (s : State) : (execUnknown w s).dt = s.dt := rfl
@[simp] theorem execUnknown_st (w : Word) (s : State) : (execUnknown w s).st = s.st := rfl
@[simp] theorem execUnknown_fb (w : Word) (s : State) : (execUnknown w s).fb = s.fb := rfl
@[simp] theorem execUnknown_keys (w : Word) (s : State) : (execUnknown w s).keys = s.keys := rfl
@[simp] theorem execUnknown_mem (w : Word) (s : State) : (execUnknown w s).mem = s.mem := rfl
@[simp] theorem execUnknown_phase (w : Word) (s : State) : (execUnknown w s).phase = s.phase := rfl
@[simp] theorem execUnknown_fcause (w : Word) (s : State) : (execUnknown w s).fcause = s.fcause := rfl
@[simp] theorem execUnknown_faddr (w : Word) (s : State) : (execUnknown w s).faddr = s.faddr := rfl
@[simp] theorem execUnknown_redraw (w : Word) (s : State) : (execUnknown w s).redraw = s.redraw := rfl
@[simp] theorem execUnknown_diag (w : Word) (s : State) : (execUnknown w s).diag = some w := rfl
@[simp] theorem execUnknown_draws (w : Word) (s : State) : (execUnknown w s).draws = s.draws := rfl
@[simp] theorem execUnknown_reg (w : Word) (s : State) (y : Reg) : (execUnknown w s).reg y = s.reg y := rfl
@[simp] theorem execUnknown_slot (w : Word) (s : State) (k : Nat) : (execUnknown w s).slot k = s.slot k := rfl
@[simp] theorem execUnknown_cell (w : Word) (s : State) (k : Nat) : (execUnknown w s).cell k = s.cell k := rfl
@[simp] theorem execUnknown_key (w : Word) (s : State) (k : Nat) : (execUnknown w s).key k = s.key k := rfl

/-! ### `State.drawSprite` -/

@[simp] theorem drawSprite_idx (ps : List Pixel) (s : State) : (s.drawSprite ps).idx = s.idx := rfl
@[simp] theorem drawSprite_pc (ps : List Pixel) (s : State) : (s.drawSprite ps).pc = s.pc + 2#16 := rfl
@[simp] theorem drawSprite_sp (ps : List Pixel) (s : State) : (s.drawSprite ps).sp = s.sp := rfl
@[simp] theorem drawSprite_stk (ps : List Pixel) (s : State) : (s.drawSprite ps).stk = s.stk := rfl
@[simp] theorem drawSprite_dt (ps : List Pixel) (s : State) : (s.drawSprite ps).dt = s.dt := rfl
@[simp] theorem drawSprite_st (ps : List Pixel) (s : State) : (s.drawSprite ps).st = s.st := rfl
@[simp] theorem drawSprite_fb (ps : List Pixel) (s : State) : (s.drawSprite ps).fb = (drawPixels s.fb false ps).1 := rfl
@[simp] theorem drawSprite_keys (ps : List Pixel) (s : State) : (s.drawSprite ps).keys = s.keys := rfl
@[simp] theorem drawSprite_mem (ps : List Pixel) (s : State) : (s.drawSprite ps).mem = s.mem := rfl
@[simp] theorem drawSprite_phase (ps : List Pixel) (s : State) : (s.drawSprite ps).phase = s.phase := rfl
@[simp] theorem drawSprite_fcause (ps : List Pixel) (s : State) : (s.drawSprite ps).fcause = s.fcause := rfl
@[simp] theorem drawSprite_faddr (ps : List Pixel) (s : State) : (s.drawSprite ps).faddr = s.faddr := rfl
@[simp] theorem drawSprite_redraw (ps : List Pixel) (s : State) : (s.drawSprite ps).redraw = true := rfl
@[simp] theorem drawSprite_diag (ps : List Pixel) (s : State) : (s.drawSprite ps).diag = s.diag := rfl
@[simp] theorem drawSprite_draws (ps : List Pixel) (s : State) : (s.drawSprite ps).draws = s.draws := rfl
@[simp] theorem drawSprite_slot (ps : List Pixel) (s : State) (k : Nat) : (s.drawSprite ps).slot k = s.slot k := rfl
@[simp] theorem drawSprite_key (ps : List Pixel) (s : State) (k : Nat) : (s.drawSprite ps).key k = s.key k := rfl

/-! ### `State.draw` (the state after it) -/

@[simp] theorem draw_v (s : State) : s.draw.2.v = s.v := rfl
@[simp] theorem draw_idx (s : State) : s.draw.2.idx = s.idx := rfl
@[simp] theorem draw_pc (s : State) : s.draw.2.pc = s.pc := rfl
@[simp] theorem draw_sp (s : State) : s.draw.2.sp = s.sp := rfl
@[simp] theorem draw_stk (s : State) : s.draw.2.stk = s.stk := rfl
@[simp] theorem draw_dt (s : State) : s.draw.2.dt = s.dt := rfl
@[simp] theorem draw_st (s : State) : s.draw.2.st = s.st := rfl
@[simp] theorem draw_fb (s : State) : s.draw.2.fb = s.fb := rfl
@[simp] theorem draw_keys (s : State) : s.draw.2.keys = s.keys := rfl
@[simp] theorem draw_mem (s : State) : s.draw.2.mem = s.mem := rfl
@[simp] theorem draw_phase (s : State) : s.draw.2.phase = s.phase := rfl
@[simp] theorem draw_fcause (s : State) : s.draw.2.fcause = s.fcause := rfl
@[simp] theorem draw_faddr (s : State) : s.draw.2.faddr = s.faddr := rfl
@[simp] theorem draw_redraw (s : State) : s.draw.2.redraw = s.redraw := rfl
@[simp] theorem draw_diag (s : State) : s.draw.2.diag = s.diag := rfl
@[simp] theorem draw_draws (s : State) : s.draw.2.draws = s.draws + 1 := rfl
@[simp] theorem draw_byte (s : State) : s.draw.1 = Config.rnd s.draws := rfl
@[simp] theorem draw_reg (s : State) (y : Reg) : s.draw.2.reg y = s.reg y := rfl
@[simp] theorem draw_slot (s : State) (k : Nat) : s.draw.2.slot k = s.slot k := rfl
@[simp] theorem draw_cell (s : State) (k : Nat) : s.draw.2.cell k = s.cell k := rfl
@[simp] theorem draw_key (s : State) (k : Nat) : s.draw.2.key k = s.key k := rfl

/-! ### `flagThenResult` -/

@[simp] theorem flagThenResult_idx (x y : Reg) (f g : Byte → Byte → Byte) (s : State) : (flagThenResult x y f g s).idx = s.idx := rfl
@[simp] theorem flagThenResult_pc (x y : Reg) (f g : Byte → Byte → Byte) (s : State) : (flagThenResult x y f g s).pc = s.pc + 2#16 := rfl
@[simp] theorem flagThenResult_sp (x y : Reg) (f g : Byte → Byte → Byte) (s : State) : (flagThenResult x y f g s).sp = s.sp := rfl
@[simp] theorem flagThenResult_stk (x y : Reg) (f g : Byte → Byte → Byte) (s : State) : (flagThenResult x y f g s).stk = s.stk := rfl
@[simp] theorem flagThenResult_dt (x y : Reg) (f g : Byte → Byte → Byte) (s : State) : (flagThenResult x y f g s).dt = s.dt := rfl
@[simp] theorem flagThenResult_st (x y : Reg) (f g : Byte → Byte → Byte) (s : State) : (flagThenResult x y f g s).st = s.st := rfl
@[simp] theorem flagThenResult_fb (x y : Reg) (f g : Byte → Byte → Byte) (s : State) : (flagThenResult x y f g s).fb = s.fb := rfl
@[simp] theorem flagThenResult_keys (x y : Reg) (f g : Byte → Byte → Byte) (s : State) : (flagThenResult x y f g s).keys = s.keys := rfl
@[simp] theorem flagThenResult_mem (x y : Reg) (f g : Byte → Byte → Byte) (s : State) : (flagThenResult x y f g s).mem = s.mem := rfl
@[simp] theorem flagThenResult_phase (x y : Reg) (f g : Byte → Byte → Byte) (s : State) : (flagThenResult x y f g s).phase = s.phase := rfl
@[simp] theorem flagThenResult_fcause (x y : Reg) (f g : Byte → Byte → Byte) (s : State) : (flagThenResult x y f g s).fcause = s.fcause := rfl
@[simp] theorem flagThenResult_faddr (x y : Reg) (f g : Byte → Byte → Byte) (s : State) : (flagThenResult x y f g s).faddr = s.faddr := rfl
@[simp] theorem flagThenResult_redraw (x y : Reg) (f g : Byte → Byte → Byte) (s : State) : (flagThenResult x y f g s).redraw = s.redraw := rfl
@[simp] theorem flagThenResult_diag (x y : Reg) (f g : Byte → Byte → Byte) (s : State) : (flagThenResult x y f g s).diag = s.diag := rfl
@[simp] theorem flagThenResult_draws (x y : Reg) (f g : Byte → Byte → Byte) (s : State) : (flagThenResult x y f g s).draws = s.draws := rfl
@[simp] theorem flagThenResult_slot (x y : Reg) (f g : Byte → Byte → Byte) (s : State) (k : Nat) : (flagThenResult x y f g s).slot k = s.slot k := rfl
@[simp] theorem flagThenResult_cell (x y : Reg) (f g : Byte → Byte → Byte) (s : State) (k : Nat) : (flagThenResult x y f g s).cell k = s.cell k := rfl
@[simp] theorem flagThenResult_key (x y : Reg) (f g : Byte → Byte → Byte) (s : State) (k : Nat) : (flagThenResult x y f g s).key k = s.key k := rfl

end Sys2Proof.Machine
end

