-- ==== Sys2Proof/Laws/Regs.lean ====
section
/-! SUPPORT. What the register, stack, key and pc operations do, said once for each. -/

namespace Sys2Proof.Machine

/-! ### General registers -/

@[simp] theorem State.reg_setReg (s : State) (x : Reg) (b : Byte) (y : Reg) :
    (s.setReg x b).reg y = if x = y then b else s.reg y := by
  simp only [State.reg, State.setReg, Vector.getElem_set, BitVec.toNat_inj]

theorem State.setReg_comm_of_eq (s : State) (x : Reg) (a b : Byte) :
    (s.setReg x a).setReg x b = s.setReg x b := by
  simp [State.setReg]

/-- The registers after a flag-writing arithmetic instruction: the result from the operands as they are
after the flag write, the flag elsewhere. -/
theorem flagThenResult_reg (x y : Reg) (f g : Byte → Byte → Byte) (s : State) (z : Reg) :
    (flagThenResult x y f g s).reg z =
      let c := f (s.reg x) (s.reg y)
      let rd := fun r : Reg => if vf = r then c else s.reg r
      if x = z then g (rd x) (rd y) else rd z := by
  simp only [flagThenResult, advance_reg, State.reg_setReg]

/-- A register after loading bytes into `V[k]`, `V[k+1]` and so on. -/
theorem getElem_loadRegs (v : Vector Byte 16) (k : Nat) (bs : List Byte) (j : Nat) (hj : j < 16) :
    (loadRegs v k bs)[j] = if h : k ≤ j ∧ j < k + bs.length then bs[j - k]'(by omega) else v[j] := by
  induction bs generalizing v k with
  | nil => simp [loadRegs]
  | cons b bs ih =>
    rw [loadRegs, ih]
    by_cases hin : k + 1 ≤ j ∧ j < k + 1 + bs.length
    · have hin' : k ≤ j ∧ j < k + (b :: bs).length := by simp only [List.length_cons]; omega
      rw [dif_pos hin, dif_pos hin']
      have : j - k = (j - (k + 1)) + 1 := by omega
      simp only [this, List.getElem_cons_succ]
    · rw [dif_neg hin, Vector.getElem_setIfInBounds]
      by_cases hk : k = j
      · subst hk; simp
      · have hin' : ¬(k ≤ j ∧ j < k + (b :: bs).length) := by simp only [List.length_cons]; omega
        rw [dif_neg hin', if_neg hk]

@[simp] theorem State.length_regsUpTo (s : State) (x : Reg) : (s.regsUpTo x).length = x.toNat + 1 := by
  have := x.isLt
  simp only [State.regsUpTo, List.length_take, Vector.length_toList]; omega

theorem State.regsUpTo_ne_nil (s : State) (x : Reg) : s.regsUpTo x ≠ [] := by
  intro h
  have := s.length_regsUpTo x
  rw [h] at this; simp at this

/-- The `k`-th byte FX55 stores is `V[k]`. -/
theorem State.getElem_regsUpTo (s : State) (x : Reg) (k : Nat) (h : k < (s.regsUpTo x).length) :
    (s.regsUpTo x)[k] = s.reg (BitVec.ofNat 4 k) := by
  have hx := x.isLt
  have hk : k < 16 := by rw [State.length_regsUpTo] at h; omega
  simp only [State.regsUpTo, State.reg, List.getElem_take, Vector.getElem_toList, BitVec.toNat_ofNat]
  congr 1
  omega

/-! ### Operands and flags as numbers -/

@[simp] theorem toNat_addrOperand (nnn : Addr12) : (addrOperand nnn).toNat = nnn.toNat := by
  have := nnn.isLt
  simp only [addrOperand, BitVec.toNat_setWidth]; omega

@[simp] theorem toNat_flagByte (b : Bool) : (flagByte b).toNat = if b then 1 else 0 := by cases b <;> rfl

theorem toNat_glyphAddr (b : Byte) : (glyphAddr b).toNat = b.toNat * 5 := by
  have := b.isLt
  simp only [glyphAddr, BitVec.toNat_mul, BitVec.toNat_setWidth, BitVec.toNat_ofNat]; omega

/-! ### Call stack -/

theorem State.push_ok (s : State) (w : Word) (h : s.sp.val < 16) :
    ∃ t, s.push w = .ok t ∧ t.sp.val = s.sp.val + 1 ∧ t.slot s.sp.val = w ∧
      (∀ k, k ≠ s.sp.val → t.slot k = s.slot k) ∧ t = { s with stk := t.stk, sp := t.sp } := by
  refine ⟨_, by simp only [State.push]; rw [dif_pos h], rfl, ?_, fun k hk => ?_, rfl⟩
  · simp [State.slot, Vector.toList_set, h]
  · simp [State.slot, Vector.toList_set, Ne.symm hk]

theorem State.push_full (s : State) (w : Word) (h : s.sp.val = 16) :
    s.push w = .error ⟨.stackOverflow, 16⟩ := by
  simp only [State.push]; rw [dif_neg (by simp only [Config.stackDepth]; omega), h]

theorem State.pop_ok (s : State) (h : s.sp.val ≠ 0) :
    ∃ t, s.pop = .ok (s.slot (s.sp.val - 1), t) ∧ t.sp.val = s.sp.val - 1 ∧ t = { s with sp := t.sp } := by
  exact ⟨_, by simp only [State.pop]; rw [if_neg h], rfl, rfl⟩

theorem State.pop_empty (s : State) (h : s.sp.val = 0) : s.pop = .error ⟨.stackUnderflow, 0⟩ := by
  simp only [State.pop]; rw [if_pos h, h]

theorem State.push_cases (s : State) (w : Word) :
    (s.sp.val < 16 ∧ ∃ t, s.push w = .ok t) ∨ (s.sp.val = 16 ∧ s.push w = .error ⟨.stackOverflow, 16⟩) := by
  by_cases h : s.sp.val < 16
  · obtain ⟨t, ht, -⟩ := s.push_ok w h
    exact Or.inl ⟨h, t, ht⟩
  · have hs : s.sp.val = 16 := by have := s.sp.isLt; omega
    exact Or.inr ⟨hs, s.push_full w hs⟩

/-! ### Keys -/

/-- The lowest key that is down is down, and every lower one is up. -/
theorem State.firstKey_some {s : State} {k : Nat} (h : s.firstKey = some k) :
    k < 16 ∧ s.key k = true ∧ ∀ j, j < k → s.key j = false := by
  rw [State.firstKey, List.findIdx?_eq_some_iff_getElem] at h
  obtain ⟨hk, hp, hlow⟩ := h
  have hk16 : k < 16 := by simpa using hk
  refine ⟨hk16, ?_, fun j hj => ?_⟩
  · simpa [State.key, hk16] using hp
  · have hj16 : j < 16 := by omega
    simpa [State.key, hj16] using hlow j hj

/-- No key is down exactly when there is no first key. -/
theorem State.firstKey_none {s : State} : s.firstKey = none ↔ ∀ k, s.key k = false := by
  rw [State.firstKey, List.findIdx?_eq_none_iff]
  constructor
  · intro h k
    simp only [State.key, List.getD_eq_getElem?_getD]
    cases hk : s.keys.toList[k]? with
    | none => rfl
    | some b => exact h b (List.mem_of_getElem? hk)
  · intro h b hb
    obtain ⟨k, hk, rfl⟩ := List.getElem_of_mem hb
    have := h k
    simpa [State.key, List.getD_eq_getElem?_getD, List.getElem?_eq_getElem hk] using this

theorem State.keyOperand_ok (s : State) (b : Byte) (h : b.toNat ≤ 15) : s.keyOperand b = .ok (s.key b.toNat) := by
  simp only [State.keyOperand]; rw [if_neg (by omega)]

theorem State.keyOperand_oob (s : State) (b : Byte) (h : 15 < b.toNat) :
    s.keyOperand b = .error ⟨.keyOob, b.toNat⟩ := by
  simp only [State.keyOperand]; rw [if_pos h]

/-! ### Timers -/

theorem toNat_countDown (b : Byte) : (countDown b).toNat = b.toNat - 1 := by
  unfold countDown
  split <;> bv_omega

end Sys2Proof.Machine
end

