-- ==== Sys2Proof/Laws/Sprite.lean ====
section
/-! SUPPORT. The pixels of a sprite and what drawing them does. -/

namespace Sys2Proof.Machine

theorem mem_rowPixels {x0 y : Nat} {b : Byte} {p : Pixel} :
    p ∈ rowPixels x0 y b ↔ ∃ c, c < 8 ∧ spriteBit b c = true ∧ p = ⟨x0 + c, y⟩ := by
  simp only [rowPixels, List.mem_map, List.mem_filter, List.mem_range]
  constructor
  · rintro ⟨c, ⟨hc, hb⟩, rfl⟩; exact ⟨c, hc, hb, rfl⟩
  · rintro ⟨c, hc, hb, rfl⟩; exact ⟨c, ⟨hc, hb⟩, rfl⟩

/-- The pixels of a sprite are the targets of its set bits. -/
theorem mem_spritePixels {x0 y0 : Nat} {bs : List Byte} {p : Pixel} :
    p ∈ spritePixels x0 y0 bs ↔
      ∃ r, ∃ h : r < bs.length, ∃ c, c < 8 ∧ spriteBit bs[r] c = true ∧ p = ⟨x0 + c, y0 + r⟩ := by
  induction bs generalizing y0 with
  | nil => simp [spritePixels]
  | cons b bs ih =>
    rw [spritePixels, List.mem_append, mem_rowPixels, ih]
    constructor
    · rintro (⟨c, hc, hb, rfl⟩ | ⟨r, hr, c, hc, hb, rfl⟩)
      · exact ⟨0, by simp, c, hc, hb, rfl⟩
      · exact ⟨r + 1, by simpa using hr, c, hc, hb, by simp [Nat.add_assoc, Nat.add_comm 1 r]⟩
    · rintro ⟨r, hr, c, hc, hb, rfl⟩
      cases r with
      | zero => exact Or.inl ⟨c, hc, hb, rfl⟩
      | succ r =>
        exact Or.inr ⟨r, by simpa using hr, c, hc, hb, by simp [Nat.add_assoc, Nat.add_comm 1 r]⟩

/-- The scan order: rows ascending, then columns ascending. -/
def Pixel.before (p q : Pixel) : Prop := p.row < q.row ∨ (p.row = q.row ∧ p.col < q.col)

theorem rowPixels_sorted (x0 y : Nat) (b : Byte) : (rowPixels x0 y b).Pairwise Pixel.before := by
  refine List.Pairwise.map (R := fun c d => c < d) _ (fun c d h => Or.inr ⟨rfl, by simpa using h⟩) ?_
  exact List.Pairwise.filter _ List.pairwise_lt_range

theorem spritePixels_sorted (x0 y0 : Nat) (bs : List Byte) : (spritePixels x0 y0 bs).Pairwise Pixel.before := by
  induction bs generalizing y0 with
  | nil => exact List.Pairwise.nil
  | cons b bs ih =>
    refine List.pairwise_append.mpr ⟨rowPixels_sorted x0 y0 b, ih (y0 + 1), fun p hp q hq => Or.inl ?_⟩
    obtain ⟨c, -, -, rfl⟩ := mem_rowPixels.mp hp
    obtain ⟨r, -, c', -, -, rfl⟩ := mem_spritePixels.mp hq
    show y0 < y0 + 1 + r
    omega

theorem Pixel.outside_eq_false {p : Pixel} : p.outside = false ↔ p.col ≤ 63 ∧ p.row ≤ 31 := by
  simp [Pixel.outside, Config.fbWidth, Config.fbHeight]

/-- The check passes exactly when every target lies inside. -/
theorem checkPixels_ok {ps : List Pixel} (h : ∀ p ∈ ps, p.outside = false) : checkPixels ps = .ok () := by
  have : ps.find? (fun p => p.outside) = none := by simpa using h
  simp [checkPixels, this]

/-- The first target outside, in a list in scan order, is the one the fault reports. -/
theorem checkPixels_error {ps : List Pixel} (hs : ps.Pairwise Pixel.before) {p : Pixel} (hp : p ∈ ps)
    (hout : p.outside = true) (hfirst : ∀ q ∈ ps, q.before p → q.outside = false) :
    checkPixels ps = .error ⟨.fbOob, p.faultInfo⟩ := by
  have hfind : ps.find? (fun p => p.outside) = some p := by
    obtain ⟨as, bs, rfl⟩ := List.append_of_mem hp
    refine List.find?_eq_some_iff_append.mpr ⟨hout, as, bs, rfl, fun q hq => ?_⟩
    have hb : q.before p := (List.pairwise_append.mp hs).2.2 q hq p (by simp)
    simp [hfirst q (by simp [hq]) hb]
  simp [checkPixels, hfind]

/-- Every outcome of the check: passed, or the fault of some target outside. -/
theorem checkPixels_cases (ps : List Pixel) :
    ((∀ p ∈ ps, p.outside = false) ∧ checkPixels ps = .ok ()) ∨
    ∃ p ∈ ps, p.outside = true ∧ checkPixels ps = .error ⟨.fbOob, p.faultInfo⟩ := by
  cases h : ps.find? (fun p => p.outside) with
  | none =>
    have hall : ∀ p ∈ ps, p.outside = false := by simpa using h
    exact Or.inl ⟨hall, checkPixels_ok hall⟩
  | some p =>
    exact Or.inr ⟨p, List.mem_of_find?_eq_some h, List.find?_some h, by simp [checkPixels, h]⟩

@[simp] theorem getLsbD_flipCell (fb : Framebuffer) (k j : Nat) (hk : k < 2048) :
    (flipCell fb k).getLsbD j = (fb.getLsbD j ^^ decide (k = j)) := by
  simp only [flipCell, BitVec.getLsbD_xor, BitVec.getLsbD_twoPow]
  simp [hk]

/-- Drawing targets of distinct cells: each is toggled, and the flag tells whether one was set. -/
theorem drawPixels_spec (fb : Framebuffer) (hit : Bool) (ps : List Pixel)
    (hin : ∀ p ∈ ps, p.index < 2048) (hnd : (ps.map Pixel.index).Nodup) :
    (∀ k, (drawPixels fb hit ps).1.getLsbD k = (fb.getLsbD k ^^ decide (k ∈ ps.map Pixel.index))) ∧
    ((drawPixels fb hit ps).2 = true ↔ hit = true ∨ ∃ p ∈ ps, fb.getLsbD p.index = true) := by
  induction ps generalizing fb hit with
  | nil => simp [drawPixels]
  | cons p ps ih =>
    rw [List.map_cons, List.nodup_cons] at hnd
    obtain ⟨ih1, ih2⟩ := ih (flipCell fb p.index) (hit || fb.getLsbD p.index)
      (fun q hq => hin q (by simp [hq])) hnd.2
    have hp := hin p (by simp)
    refine ⟨fun k => ?_, ?_⟩
    · rw [drawPixels, ih1 k, getLsbD_flipCell _ _ _ hp]
      by_cases hk : p.index = k
      · subst hk; simp [hnd.1]
      · simp [hk, Ne.symm hk]
    · rw [drawPixels, ih2]
      have hne : ∀ q ∈ ps, (flipCell fb p.index).getLsbD q.index = fb.getLsbD q.index := fun q hq => by
        rw [getLsbD_flipCell _ _ _ hp]
        have : p.index ≠ q.index := fun he => hnd.1 (he ▸ List.mem_map_of_mem hq)
        simp [this]
      constructor
      · rintro (h | ⟨q, hq, hb⟩)
        · rcases Bool.or_eq_true _ _ ▸ h with h | h
          · exact Or.inl h
          · exact Or.inr ⟨p, by simp, h⟩
        · exact Or.inr ⟨q, by simp [hq], by rw [← hne q hq]; exact hb⟩
      · rintro (h | ⟨q, hq, hb⟩)
        · exact Or.inl (by simp [h])
        · rcases List.mem_cons.mp hq with rfl | hq
          · exact Or.inl (by simp [hb])
          · exact Or.inr ⟨q, hq, by rw [hne q hq]; exact hb⟩

theorem Pixel.index_lt {p : Pixel} (h : p.outside = false) : p.index < 2048 := by
  obtain ⟨h1, h2⟩ := Pixel.outside_eq_false.mp h
  simp only [Pixel.index, Config.fbWidth]; omega

/-- Inside the grid two targets with one index are the same target. -/
theorem Pixel.index_inj {p q : Pixel} (hp : p.outside = false) (hq : q.outside = false)
    (h : p.index = q.index) : p = q := by
  obtain ⟨h1, h2⟩ := Pixel.outside_eq_false.mp hp
  obtain ⟨h3, h4⟩ := Pixel.outside_eq_false.mp hq
  simp only [Pixel.index, Config.fbWidth] at h
  cases p; cases q
  simp only [Pixel.mk.injEq] at *
  omega

/-- The set bits of one sprite inside the grid toggle distinct cells. -/
theorem nodup_sprite_indices (x0 y0 : Nat) (bs : List Byte) (h : ∀ p ∈ spritePixels x0 y0 bs, p.outside = false) :
    ((spritePixels x0 y0 bs).map Pixel.index).Nodup := by
  have hnd : (spritePixels x0 y0 bs).Nodup := by
    refine (spritePixels_sorted x0 y0 bs).imp fun {p q} hb he => ?_
    subst he
    rcases hb with hb | hb <;> omega
  exact (List.nodup_map_iff_inj_on hnd).mpr fun p hp q hq he => Pixel.index_inj (h p hp) (h q hq) he

end Sys2Proof.Machine
end

