-- ==== Sys2Proof/Laws/Exec.lean ====
section
/-! SUPPORT. What an instruction can do, said once: it completes, or it raises one of its faults in the state it started from. -/

namespace Sys2Proof.Machine

/-- What every completed instruction leaves alone: the run-control registers, the keys and the diagnostic. -/
structure Completed (s t : State) : Prop where
  phase : t.phase = s.phase
  fcause : t.fcause = s.fcause
  faddr : t.faddr = s.faddr
  keys : t.keys = s.keys
  diag : t.diag = s.diag

/-- RET: the popped address plus 2, or the underflow fault. -/
theorem execRet_cases (s : State) :
    (s.sp.val ≠ 0 ∧ ∃ t, execRet s = .next t ∧ Completed s t ∧ t.sp.val = s.sp.val - 1 ∧
      t = { s with pc := s.slot (s.sp.val - 1) + 2#16, sp := t.sp }) ∨
    (s.sp.val = 0 ∧ execRet s = .next (raiseFault ⟨.stackUnderflow, 0⟩ s)) := by
  by_cases h : s.sp.val = 0
  · exact Or.inr ⟨h, by simp only [execRet, s.pop_empty h]⟩
  · obtain ⟨t, ht, hsp, hts⟩ := s.pop_ok h
    refine Or.inl ⟨h, t.setPc (s.slot (s.sp.val - 1) + 2#16), by simp only [execRet, ht], ?_, hsp, ?_⟩ <;> rw [hts]
    · exact ⟨rfl, rfl, rfl, rfl, rfl⟩
    · rfl

/-- CALL: the own address pushed and the target taken, or the overflow fault. -/
theorem execCall_cases (nnn : Addr12) (s : State) :
    (s.sp.val < 16 ∧ ∃ t, execCall nnn s = .next t ∧ Completed s t ∧ t.sp.val = s.sp.val + 1 ∧
      t.slot s.sp.val = s.pc ∧ (∀ k, k ≠ s.sp.val → t.slot k = s.slot k) ∧
      t = { s with pc := addrOperand nnn, stk := t.stk, sp := t.sp }) ∨
    (s.sp.val = 16 ∧ execCall nnn s = .next (raiseFault ⟨.stackOverflow, 16⟩ s)) := by
  by_cases h : s.sp.val < 16
  · obtain ⟨t, ht, hsp, hslot, hother, hts⟩ := s.push_ok s.pc h
    refine Or.inl ⟨h, t.setPc (addrOperand nnn), by simp only [execCall, ht], ?_, hsp, hslot, hother, ?_⟩
    · rw [hts]; exact ⟨rfl, rfl, rfl, rfl, rfl⟩
    · rw [hts]; rfl
  · have hs : s.sp.val = 16 := by have := s.sp.isLt; omega
    exact Or.inr ⟨hs, by simp only [execCall, s.push_full _ hs]⟩

/-- Storing at `I`: RAM written and `pc` advanced, or a range fault. -/
theorem storeAtIdx_cases (s : State) (bs : List Byte) (h0 : bs ≠ []) :
    (Config.fontSize ≤ s.idx.toNat ∧ s.idx.toNat + bs.length ≤ Config.addrMax + 1 ∧
      ∃ t, conclude s (s.storeAtIdx bs) = .next t ∧ (s.mem.wf → t.mem.wf) ∧
        (∀ b, t.mem.read b = if h : s.idx.toNat ≤ b ∧ b < s.idx.toNat + bs.length
          then bs[b - s.idx.toNat]'(by omega) else s.mem.read b) ∧
        t = { s with mem := t.mem, pc := s.pc + 2#16 }) ∨
    (Config.addrMax + 1 < s.idx.toNat + bs.length ∧
      conclude s (s.storeAtIdx bs) = .next (raiseFault ⟨.memOob, max s.idx.toNat (Config.addrMax + 1)⟩ s)) ∨
    (s.idx.toNat < Config.fontSize ∧
      conclude s (s.storeAtIdx bs) = .next (raiseFault ⟨.fontWrite, s.idx.toNat⟩ s)) := by
  have hpos : 0 < bs.length := List.length_pos_iff.mpr h0
  by_cases hf : s.idx.toNat < Config.fontSize
  · refine Or.inr (Or.inr ⟨hf, ?_⟩)
    simp only [State.storeAtIdx, State.effAddr, Nat.add_zero, memWriteRange_font hf h0, conclude]
  · by_cases hb : s.idx.toNat + bs.length ≤ Config.addrMax + 1
    · obtain ⟨m', he, hwf, hr⟩ := memWriteRange_ok (m := s.mem) (a := s.idx.toNat) (bs := bs) (by omega) (Or.inr hb)
      refine Or.inl ⟨by omega, hb, State.advance { s with mem := m' }, ?_, hwf, hr, rfl⟩
      simp only [State.storeAtIdx, State.effAddr, Nat.add_zero, he, conclude]
    · refine Or.inr (Or.inl ⟨by omega, ?_⟩)
      simp only [State.storeAtIdx, State.effAddr, Nat.add_zero, conclude,
        memWriteRange_oob (m := s.mem) (a := s.idx.toNat) (bs := bs) (by omega) hpos (by omega)]

/-- LD Vx, [I]: the registers loaded, or the range fault. -/
theorem execLdVxMem_cases (x : Reg) (s : State) :
    (s.idx.toNat + (x.toNat + 1) ≤ Config.addrMax + 1 ∧ ∃ t, execLdVxMem x s = .next t ∧
      (∀ r : Reg, t.reg r = if r.toNat ≤ x.toNat then s.mem.read (s.idx.toNat + r.toNat) else s.reg r) ∧
      t = { s with v := t.v, pc := s.pc + 2#16 }) ∨
    (Config.addrMax + 1 < s.idx.toNat + (x.toNat + 1) ∧
      execLdVxMem x s = .next (raiseFault ⟨.memOob, max s.idx.toNat (Config.addrMax + 1)⟩ s)) := by
  rcases memReadRange_cases s.mem s.idx.toNat (x.toNat + 1) with ⟨h, he⟩ | ⟨-, h, he⟩
  · refine Or.inl ⟨by omega, _, by simp only [execLdVxMem, State.effAddr, Nat.add_zero, he]; rfl, fun r => ?_, rfl⟩
    have hr := r.isLt
    simp only [State.reg, State.advance, getElem_loadRegs]
    by_cases hx : r.toNat ≤ x.toNat
    · rw [dif_pos ⟨Nat.zero_le _, by simp; omega⟩, if_pos hx]; simp
    · rw [dif_neg (by simp; omega), if_neg hx]
  · exact Or.inr ⟨h, by simp only [execLdVxMem, State.effAddr, Nat.add_zero, he]⟩

/-- The rows of the sprite at `I`. -/
def State.spriteRows (s : State) (n : BitVec 4) : List Byte :=
  (List.range n.toNat).map fun k => s.mem.read (s.idx.toNat + k)

/-- DRW: the sprite drawn, or the range fault, or the fault of a target outside. -/
theorem execDrw_cases (x y : Reg) (n : BitVec 4) (s : State) :
    let ps := spritePixels (s.reg x).toNat (s.reg y).toNat (s.spriteRows n)
    ((n.toNat = 0 ∨ s.idx.toNat + n.toNat ≤ Config.addrMax + 1) ∧ (∀ p ∈ ps, p.outside = false) ∧
      execDrw x y n s = .next (s.drawSprite ps)) ∨
    (0 < n.toNat ∧ Config.addrMax + 1 < s.idx.toNat + n.toNat ∧
      execDrw x y n s = .next (raiseFault ⟨.memOob, max s.idx.toNat (Config.addrMax + 1)⟩ s)) ∨
    ((n.toNat = 0 ∨ s.idx.toNat + n.toNat ≤ Config.addrMax + 1) ∧ ∃ p ∈ ps, p.outside = true ∧
      checkPixels ps = .error ⟨.fbOob, p.faultInfo⟩ ∧
      execDrw x y n s = .next (raiseFault ⟨.fbOob, p.faultInfo⟩ s)) := by
  intro ps
  rcases memReadRange_cases s.mem s.idx.toNat n.toNat with ⟨h, he⟩ | ⟨h0, h, he⟩
  · rcases checkPixels_cases ps with ⟨hall, hc⟩ | ⟨p, hp, hout, hc⟩
    · refine Or.inl ⟨h, hall, ?_⟩
      simp only [execDrw, State.effAddr, Nat.add_zero, he]
      simp only [ps, State.spriteRows] at hc ⊢
      rw [hc]
    · refine Or.inr (Or.inr ⟨h, p, hp, hout, hc, ?_⟩)
      simp only [execDrw, State.effAddr, Nat.add_zero, he]
      simp only [ps, State.spriteRows] at hc ⊢
      rw [hc]
  · exact Or.inr (Or.inl ⟨h0, h, by simp only [execDrw, State.effAddr, Nat.add_zero, he]⟩)

/-- SKP: the skip on the key flag, or the key fault. -/
theorem execSkp_cases (x : Reg) (s : State) :
    ((s.reg x).toNat ≤ 15 ∧ execSkp x s = .next (s.skipIf (s.key (s.reg x).toNat))) ∨
    (15 < (s.reg x).toNat ∧ execSkp x s = .next (raiseFault ⟨.keyOob, (s.reg x).toNat⟩ s)) := by
  by_cases h : (s.reg x).toNat ≤ 15
  · exact Or.inl ⟨h, by simp only [execSkp, s.keyOperand_ok _ h]⟩
  · exact Or.inr ⟨by omega, by simp only [execSkp, s.keyOperand_oob _ (by omega : 15 < (s.reg x).toNat)]⟩

/-- SKNP: the skip on the clear key flag, or the key fault. -/
theorem execSknp_cases (x : Reg) (s : State) :
    ((s.reg x).toNat ≤ 15 ∧ execSknp x s = .next (s.skipIf (!s.key (s.reg x).toNat))) ∨
    (15 < (s.reg x).toNat ∧ execSknp x s = .next (raiseFault ⟨.keyOob, (s.reg x).toNat⟩ s)) := by
  by_cases h : (s.reg x).toNat ≤ 15
  · exact Or.inl ⟨h, by simp only [execSknp, s.keyOperand_ok _ h]⟩
  · exact Or.inr ⟨by omega, by simp only [execSknp, s.keyOperand_oob _ (by omega : 15 < (s.reg x).toNat)]⟩

/-- The instructions that can fault, with the causes each can raise (60_exceptions.md R251). -/
def Instr.mayRaise : Instr → FaultCause → Prop
  | .drw _ _ _, c => c = .memOob ∨ c = .fbOob
  | .ldBVx _, c => c = .memOob ∨ c = .fontWrite
  | .ldMemVx _, c => c = .memOob ∨ c = .fontWrite
  | .ldVxMem _, c => c = .memOob
  | .skp _, c => c = .keyOob
  | .sknp _, c => c = .keyOob
  | .call _, c => c = .stackOverflow
  | .ret, c => c = .stackUnderflow
  | _, _ => False

/-- INVERSION. An instruction completes, or raises a fault of its own in the state it started from. -/
theorem exec_cases (i : Instr) (s : State) :
    (∃ t, exec i s = .next t ∧ Completed s t) ∨
    ∃ trap : Trap, Instr.mayRaise i trap.cause ∧ exec i s = .next (raiseFault trap s) := by
  cases i with
  | ret =>
    rcases execRet_cases s with ⟨-, t, ht, hc, -⟩ | ⟨-, ht⟩
    · exact Or.inl ⟨t, ht, hc⟩
    · exact Or.inr ⟨_, by exact rfl, ht⟩
  | call nnn =>
    rcases execCall_cases nnn s with ⟨-, t, ht, hc, -⟩ | ⟨-, ht⟩
    · exact Or.inl ⟨t, ht, hc⟩
    · exact Or.inr ⟨_, by exact rfl, ht⟩
  | drw x y n =>
    rcases execDrw_cases x y n s with ⟨-, -, ht⟩ | ⟨-, -, ht⟩ | ⟨-, p, -, -, -, ht⟩
    · exact Or.inl ⟨_, ht, ⟨rfl, rfl, rfl, rfl, rfl⟩⟩
    · exact Or.inr ⟨_, by exact Or.inl rfl, ht⟩
    · exact Or.inr ⟨_, by exact Or.inr rfl, ht⟩
  | skp x =>
    rcases execSkp_cases x s with ⟨-, ht⟩ | ⟨-, ht⟩
    · exact Or.inl ⟨_, ht, ⟨rfl, rfl, rfl, rfl, rfl⟩⟩
    · exact Or.inr ⟨_, by exact rfl, ht⟩
  | sknp x =>
    rcases execSknp_cases x s with ⟨-, ht⟩ | ⟨-, ht⟩
    · exact Or.inl ⟨_, ht, ⟨rfl, rfl, rfl, rfl, rfl⟩⟩
    · exact Or.inr ⟨_, by exact rfl, ht⟩
  | ldBVx x =>
    rcases storeAtIdx_cases s (bcdDigits (s.reg x)) (by simp [bcdDigits]) with ⟨-, -, t, ht, -, -, hts⟩ | ⟨-, ht⟩ | ⟨-, ht⟩
    · exact Or.inl ⟨t, ht, by rw [hts]; exact ⟨rfl, rfl, rfl, rfl, rfl⟩⟩
    · exact Or.inr ⟨_, by exact Or.inl rfl, ht⟩
    · exact Or.inr ⟨_, by exact Or.inr rfl, ht⟩
  | ldMemVx x =>
    rcases storeAtIdx_cases s (s.regsUpTo x) (s.regsUpTo_ne_nil x) with ⟨-, -, t, ht, -, -, hts⟩ | ⟨-, ht⟩ | ⟨-, ht⟩
    · exact Or.inl ⟨t, ht, by rw [hts]; exact ⟨rfl, rfl, rfl, rfl, rfl⟩⟩
    · exact Or.inr ⟨_, by exact Or.inl rfl, ht⟩
    · exact Or.inr ⟨_, by exact Or.inr rfl, ht⟩
  | ldVxMem x =>
    rcases execLdVxMem_cases x s with ⟨-, t, ht, -, hts⟩ | ⟨-, ht⟩
    · exact Or.inl ⟨t, ht, by rw [hts]; exact ⟨rfl, rfl, rfl, rfl, rfl⟩⟩
    · exact Or.inr ⟨_, by exact rfl, ht⟩
  | ldVxK x =>
    left
    cases hk : s.firstKey with
    | none => exact ⟨s, by simp only [exec, execLdVxK, hk], ⟨rfl, rfl, rfl, rfl, rfl⟩⟩
    | some k => exact ⟨(s.setReg x (BitVec.ofNat 8 k)).advance, by simp only [exec, execLdVxK, hk], ⟨rfl, rfl, rfl, rfl, rfl⟩⟩
  | _ => exact Or.inl ⟨_, rfl, ⟨rfl, rfl, rfl, rfl, rfl⟩⟩

end Sys2Proof.Machine
end

