-- ==== Sys2Proof/Laws/PerInstr.lean ====
section
/-! SUPPORT. Per instruction: its encoding lies in its own row of the opcode map (30_encoding.md R95, R100). -/

namespace Sys2Proof.Laws.EncodesRow

/-- The instruction's match value and mask are a row of the map, and its encoding matches that row,
whatever its operands. -/
def Statement (i : Instr) : Prop :=
  (⟨i.matchBits, i.maskBits⟩ : OpcodeRow) ∈ opcodeMap ∧ encode i &&& i.maskBits = i.matchBits

theorem cls : Statement .cls := ⟨by decide, by decide⟩

theorem ret : Statement .ret := ⟨by decide, by decide⟩

theorem jp (nnn : Addr12) : Statement (.jp nnn) :=
  ⟨(by decide : (⟨0x1000#16, 0xF000#16⟩ : OpcodeRow) ∈ opcodeMap),
    by simpa only [encode, Instr.matchBits, Instr.operandBits, Instr.maskBits] using or_and_of_parts (by decide) (placeNNN_and nnn)⟩

theorem call (nnn : Addr12) : Statement (.call nnn) :=
  ⟨(by decide : (⟨0x2000#16, 0xF000#16⟩ : OpcodeRow) ∈ opcodeMap),
    by simpa only [encode, Instr.matchBits, Instr.operandBits, Instr.maskBits] using or_and_of_parts (by decide) (placeNNN_and nnn)⟩

theorem seVxNn (x : Reg) (nn : Byte) : Statement (.seVxNn x nn) :=
  ⟨(by decide : (⟨0x3000#16, 0xF000#16⟩ : OpcodeRow) ∈ opcodeMap),
    by simpa only [encode, Instr.matchBits, Instr.operandBits, Instr.maskBits] using or_and_of_parts (by decide) (placeXNN_and x nn)⟩

theorem sneVxNn (x : Reg) (nn : Byte) : Statement (.sneVxNn x nn) :=
  ⟨(by decide : (⟨0x4000#16, 0xF000#16⟩ : OpcodeRow) ∈ opcodeMap),
    by simpa only [encode, Instr.matchBits, Instr.operandBits, Instr.maskBits] using or_and_of_parts (by decide) (placeXNN_and x nn)⟩

theorem seVxVy (x y : Reg) : Statement (.seVxVy x y) :=
  ⟨(by decide : (⟨0x5000#16, 0xF00F#16⟩ : OpcodeRow) ∈ opcodeMap),
    by simpa only [encode, Instr.matchBits, Instr.operandBits, Instr.maskBits] using or_and_of_parts (by decide) (placeXY_and x y)⟩

theorem ldVxNn (x : Reg) (nn : Byte) : Statement (.ldVxNn x nn) :=
  ⟨(by decide : (⟨0x6000#16, 0xF000#16⟩ : OpcodeRow) ∈ opcodeMap),
    by simpa only [encode, Instr.matchBits, Instr.operandBits, Instr.maskBits] using or_and_of_parts (by decide) (placeXNN_and x nn)⟩

theorem addVxNn (x : Reg) (nn : Byte) : Statement (.addVxNn x nn) :=
  ⟨(by decide : (⟨0x7000#16, 0xF000#16⟩ : OpcodeRow) ∈ opcodeMap),
    by simpa only [encode, Instr.matchBits, Instr.operandBits, Instr.maskBits] using or_and_of_parts (by decide) (placeXNN_and x nn)⟩

theorem ldVxVy (x y : Reg) : Statement (.ldVxVy x y) :=
  ⟨(by decide : (⟨0x8000#16, 0xF00F#16⟩ : OpcodeRow) ∈ opcodeMap),
    by simpa only [encode, Instr.matchBits, Instr.operandBits, Instr.maskBits] using or_and_of_parts (by decide) (placeXY_and x y)⟩

theorem or (x y : Reg) : Statement (.or x y) :=
  ⟨(by decide : (⟨0x8001#16, 0xF00F#16⟩ : OpcodeRow) ∈ opcodeMap),
    by simpa only [encode, Instr.matchBits, Instr.operandBits, Instr.maskBits] using or_and_of_parts (by decide) (placeXY_and x y)⟩

theorem and (x y : Reg) : Statement (.and x y) :=
  ⟨(by decide : (⟨0x8002#16, 0xF00F#16⟩ : OpcodeRow) ∈ opcodeMap),
    by simpa only [encode, Instr.matchBits, Instr.operandBits, Instr.maskBits] using or_and_of_parts (by decide) (placeXY_and x y)⟩

theorem xor (x y : Reg) : Statement (.xor x y) :=
  ⟨(by decide : (⟨0x8003#16, 0xF00F#16⟩ : OpcodeRow) ∈ opcodeMap),
    by simpa only [encode, Instr.matchBits, Instr.operandBits, Instr.maskBits] using or_and_of_parts (by decide) (placeXY_and x y)⟩

theorem addVxVy (x y : Reg) : Statement (.addVxVy x y) :=
  ⟨(by decide : (⟨0x8004#16, 0xF00F#16⟩ : OpcodeRow) ∈ opcodeMap),
    by simpa only [encode, Instr.matchBits, Instr.operandBits, Instr.maskBits] using or_and_of_parts (by decide) (placeXY_and x y)⟩

theorem sub (x y : Reg) : Statement (.sub x y) :=
  ⟨(by decide : (⟨0x8005#16, 0xF00F#16⟩ : OpcodeRow) ∈ opcodeMap),
    by simpa only [encode, Instr.matchBits, Instr.operandBits, Instr.maskBits] using or_and_of_parts (by decide) (placeXY_and x y)⟩

theorem shr (x y : Reg) : Statement (.shr x y) :=
  ⟨(by decide : (⟨0x8006#16, 0xF00F#16⟩ : OpcodeRow) ∈ opcodeMap),
    by simpa only [encode, Instr.matchBits, Instr.operandBits, Instr.maskBits] using or_and_of_parts (by decide) (placeXY_and x y)⟩

theorem subn (x y : Reg) : Statement (.subn x y) :=
  ⟨(by decide : (⟨0x8007#16, 0xF00F#16⟩ : OpcodeRow) ∈ opcodeMap),
    by simpa only [encode, Instr.matchBits, Instr.operandBits, Instr.maskBits] using or_and_of_parts (by decide) (placeXY_and x y)⟩

theorem shl (x y : Reg) : Statement (.shl x y) :=
  ⟨(by decide : (⟨0x800E#16, 0xF00F#16⟩ : OpcodeRow) ∈ opcodeMap),
    by simpa only [encode, Instr.matchBits, Instr.operandBits, Instr.maskBits] using or_and_of_parts (by decide) (placeXY_and x y)⟩

theorem sneVxVy (x y : Reg) : Statement (.sneVxVy x y) :=
  ⟨(by decide : (⟨0x9000#16, 0xF00F#16⟩ : OpcodeRow) ∈ opcodeMap),
    by simpa only [encode, Instr.matchBits, Instr.operandBits, Instr.maskBits] using or_and_of_parts (by decide) (placeXY_and x y)⟩

theorem ldINnn (nnn : Addr12) : Statement (.ldINnn nnn) :=
  ⟨(by decide : (⟨0xA000#16, 0xF000#16⟩ : OpcodeRow) ∈ opcodeMap),
    by simpa only [encode, Instr.matchBits, Instr.operandBits, Instr.maskBits] using or_and_of_parts (by decide) (placeNNN_and nnn)⟩

theorem jpV0 (nnn : Addr12) : Statement (.jpV0 nnn) :=
  ⟨(by decide : (⟨0xB000#16, 0xF000#16⟩ : OpcodeRow) ∈ opcodeMap),
    by simpa only [encode, Instr.matchBits, Instr.operandBits, Instr.maskBits] using or_and_of_parts (by decide) (placeNNN_and nnn)⟩

theorem rnd (x : Reg) (nn : Byte) : Statement (.rnd x nn) :=
  ⟨(by decide : (⟨0xC000#16, 0xF000#16⟩ : OpcodeRow) ∈ opcodeMap),
    by simpa only [encode, Instr.matchBits, Instr.operandBits, Instr.maskBits] using or_and_of_parts (by decide) (placeXNN_and x nn)⟩

theorem drw (x y : Reg) (n : BitVec 4) : Statement (.drw x y n) :=
  ⟨(by decide : (⟨0xD000#16, 0xF000#16⟩ : OpcodeRow) ∈ opcodeMap),
    by simpa only [encode, Instr.matchBits, Instr.operandBits, Instr.maskBits] using or_and_of_parts (by decide) (placeXYN_and x y n)⟩

theorem skp (x : Reg) : Statement (.skp x) :=
  ⟨(by decide : (⟨0xE09E#16, 0xF0FF#16⟩ : OpcodeRow) ∈ opcodeMap),
    by simpa only [encode, Instr.matchBits, Instr.operandBits, Instr.maskBits] using or_and_of_parts (by decide) (placeX_and x)⟩

theorem sknp (x : Reg) : Statement (.sknp x) :=
  ⟨(by decide : (⟨0xE0A1#16, 0xF0FF#16⟩ : OpcodeRow) ∈ opcodeMap),
    by simpa only [encode, Instr.matchBits, Instr.operandBits, Instr.maskBits] using or_and_of_parts (by decide) (placeX_and x)⟩

theorem ldVxDt (x : Reg) : Statement (.ldVxDt x) :=
  ⟨(by decide : (⟨0xF007#16, 0xF0FF#16⟩ : OpcodeRow) ∈ opcodeMap),
    by simpa only [encode, Instr.matchBits, Instr.operandBits, Instr.maskBits] using or_and_of_parts (by decide) (placeX_and x)⟩

theorem ldVxK (x : Reg) : Statement (.ldVxK x) :=
  ⟨(by decide : (⟨0xF00A#16, 0xF0FF#16⟩ : OpcodeRow) ∈ opcodeMap),
    by simpa only [encode, Instr.matchBits, Instr.operandBits, Instr.maskBits] using or_and_of_parts (by decide) (placeX_and x)⟩

theorem ldDtVx (x : Reg) : Statement (.ldDtVx x) :=
  ⟨(by decide : (⟨0xF015#16, 0xF0FF#16⟩ : OpcodeRow) ∈ opcodeMap),
    by simpa only [encode, Instr.matchBits, Instr.operandBits, Instr.maskBits] using or_and_of_parts (by decide) (placeX_and x)⟩

theorem ldStVx (x : Reg) : Statement (.ldStVx x) :=
  ⟨(by decide : (⟨0xF018#16, 0xF0FF#16⟩ : OpcodeRow) ∈ opcodeMap),
    by simpa only [encode, Instr.matchBits, Instr.operandBits, Instr.maskBits] using or_and_of_parts (by decide) (placeX_and x)⟩

theorem addIVx (x : Reg) : Statement (.addIVx x) :=
  ⟨(by decide : (⟨0xF01E#16, 0xF0FF#16⟩ : OpcodeRow) ∈ opcodeMap),
    by simpa only [encode, Instr.matchBits, Instr.operandBits, Instr.maskBits] using or_and_of_parts (by decide) (placeX_and x)⟩

theorem ldFVx (x : Reg) : Statement (.ldFVx x) :=
  ⟨(by decide : (⟨0xF029#16, 0xF0FF#16⟩ : OpcodeRow) ∈ opcodeMap),
    by simpa only [encode, Instr.matchBits, Instr.operandBits, Instr.maskBits] using or_and_of_parts (by decide) (placeX_and x)⟩

theorem ldBVx (x : Reg) : Statement (.ldBVx x) :=
  ⟨(by decide : (⟨0xF033#16, 0xF0FF#16⟩ : OpcodeRow) ∈ opcodeMap),
    by simpa only [encode, Instr.matchBits, Instr.operandBits, Instr.maskBits] using or_and_of_parts (by decide) (placeX_and x)⟩

theorem ldMemVx (x : Reg) : Statement (.ldMemVx x) :=
  ⟨(by decide : (⟨0xF055#16, 0xF0FF#16⟩ : OpcodeRow) ∈ opcodeMap),
    by simpa only [encode, Instr.matchBits, Instr.operandBits, Instr.maskBits] using or_and_of_parts (by decide) (placeX_and x)⟩

theorem ldVxMem (x : Reg) : Statement (.ldVxMem x) :=
  ⟨(by decide : (⟨0xF065#16, 0xF0FF#16⟩ : OpcodeRow) ∈ opcodeMap),
    by simpa only [encode, Instr.matchBits, Instr.operandBits, Instr.maskBits] using or_and_of_parts (by decide) (placeX_and x)⟩

end Sys2Proof.Laws.EncodesRow
end

