-- ==== Sys2Proof/Laws/Step.lean ====
section
/-! SUPPORT. What a step can do, said once, and the fetch in the words of the rules. -/

namespace Sys2Proof.Machine

open Sys2Proof.Safety

theorem pcValid_iff {pc : Word} : pcValid pc = true ↔ fetchable pc := by
  simp [pcValid, fetchable, Config.progBase, and_assoc]

theorem wordAt_iff {s : State} {w : Word} : wordAt s w ↔ w = s.wordAtPc := by
  rw [wordAt, ← BitVec.toNat_inj, State.wordAtPc, toNat_wordOfBytes]

@[simp] theorem clearOutputs_wordAtPc (s : State) : s.clearOutputs.wordAtPc = s.wordAtPc := rfl

theorem fetches_iff {s : State} {w : Word} :
    fetches s w ↔ s.phase = .run ∧ pcValid s.pc = true ∧ w = s.wordAtPc := by
  rw [fetches, wordAt_iff, pcValid_iff]

/-- An instruction placed for the next fetch is the one fetched. -/
theorem fetches_placeInstruction (s : State) (w : Word) : fetches (s.placeInstruction w) w := by
  refine fetches_iff.mpr ⟨rfl, ?_, ?_⟩
  · simp only [State.placeInstruction]; split
    · assumption
    · rfl
  · have h0 (m : Memory) (a : Nat) : (m.load a [highByte w, lowByte w]).read a = highByte w := by
      rw [Memory.read_load, dif_pos (by simp)]; simp
    have h1 (m : Memory) (a : Nat) : (m.load a [highByte w, lowByte w]).read (a + 1) = lowByte w := by
      rw [Memory.read_load, dif_pos (by simp)]; simp
    exact (wordOfBytes_high_low w).symm.trans (congrArg₂ wordOfBytes (h0 _ _).symm (h1 _ _).symm)

/-- The end of a completed step is the tick. -/
theorem endStep_of_run {t : State} (h : t.phase = .run) : t.endStep = t.tick := by
  simp [State.endStep, h]

/-- The end of a faulted step is nothing. -/
@[simp] theorem endStep_raiseFault (trap : Trap) (s : State) : (raiseFault trap s).endStep = raiseFault trap s := rfl

/-- A step that fetches an instruction runs it. -/
theorem step_of_decode {s : State} {w : Word} {i : Instr} (hf : fetches s w) (hd : decodeWord w = .ok i) :
    step s =
      match exec i s.clearOutputs with
      | .next t => .next t.endStep
      | .fault r => .fault r
      | .refused r => .refused r := by
  obtain ⟨hr, hv, rfl⟩ := fetches_iff.mp hf
  simp only [step, hr, runStep, State.fetch, clearOutputs_pc, hv, if_true, execWord, clearOutputs_wordAtPc, hd]
  all_goals (cases exec i s.clearOutputs <;> rfl)

/-- A step whose instruction completes ends with the tick. -/
theorem step_of_exec {s u : State} {w : Word} {i : Instr} (hf : fetches s w) (hd : decodeWord w = .ok i)
    (he : exec i s.clearOutputs = .next u) (hu : u.phase = .run) : step s = .next u.tick := by
  rw [step_of_decode hf hd, he]
  simp only [endStep_of_run hu]

/-- A step that fetches no instruction reports the word. -/
theorem step_of_unknown {s : State} {w : Word} {e : DecodeError} (hf : fetches s w) (hd : decodeWord w = .error e) :
    step s = .next (execUnknown w s.clearOutputs).tick := by
  obtain ⟨hr, hv, rfl⟩ := fetches_iff.mp hf
  simp only [step, hr, runStep, State.fetch, clearOutputs_pc, hv, if_true, execWord, clearOutputs_wordAtPc, hd]
  rw [endStep_of_run (by simp [hr])]

/-- A step at an invalid address faults. -/
theorem step_of_invalid {s : State} (hr : s.phase = .run) (hv : pcValid s.pc = false) :
    step s = .next (raiseFault ⟨.pcInvalid, s.pc.toNat⟩ s.clearOutputs) := by
  simp only [step, hr, runStep, State.fetch, clearOutputs_pc, hv]
  rfl

/-- INVERSION. What a step that answers a next state did. -/
inductive StepTo (s t : State) : Prop where
  | stopped (hp : s.phase = .fault) (ht : t = s.clearOutputs)
  | invalid (hp : s.phase = .run) (hv : pcValid s.pc = false)
      (ht : t = raiseFault ⟨.pcInvalid, s.pc.toNat⟩ s.clearOutputs)
  | unknown (w : Word) (e : DecodeError) (hf : fetches s w) (hd : decodeWord w = .error e)
      (ht : t = (execUnknown w s.clearOutputs).tick)
  | completed (w : Word) (i : Instr) (u : State) (hf : fetches s w) (hd : decodeWord w = .ok i)
      (he : exec i s.clearOutputs = .next u) (hc : Completed s.clearOutputs u) (ht : t = u.tick)
  | faulted (w : Word) (i : Instr) (trap : Trap) (hf : fetches s w) (hd : decodeWord w = .ok i)
      (hm : Instr.mayRaise i trap.cause) (he : exec i s.clearOutputs = .next (raiseFault trap s.clearOutputs))
      (ht : t = raiseFault trap s.clearOutputs)

/-- Outside INIT a step answers a next state, in one of the five ways. -/
theorem step_answers {s : State} (h : s.phase ≠ .init) : ∃ t, step s = .next t ∧ StepTo s t := by
  cases hp : s.phase with
  | init => exact absurd hp h
  | fault => exact ⟨_, by simp only [step, hp], .stopped hp rfl⟩
  | run =>
    cases hv : pcValid s.pc with
    | false => exact ⟨_, step_of_invalid hp hv, .invalid hp hv rfl⟩
    | true =>
      have hf : fetches s s.wordAtPc := fetches_iff.mpr ⟨hp, hv, rfl⟩
      cases hd : decodeWord s.wordAtPc with
      | error e => exact ⟨_, step_of_unknown hf hd, .unknown _ e hf hd rfl⟩
      | ok i =>
        rcases exec_cases i s.clearOutputs with ⟨u, he, hc⟩ | ⟨trap, hm, he⟩
        · have hu : u.phase = .run := by rw [hc.phase]; simpa using hp
          exact ⟨_, step_of_exec hf hd he hu, .completed _ i u hf hd he hc rfl⟩
        · refine ⟨_, ?_, .faulted _ i trap hf hd hm he rfl⟩
          rw [step_of_decode hf hd, he]; rfl

theorem step_init {s : State} (h : s.phase = .init) : step s = .refused .stepBeforeLoad := by
  simp only [step, h]

/-- INVERSION. A step that answers `t` got there in one of the five ways. -/
theorem step_cases {s t : State} (h : step s = .next t) : StepTo s t := by
  have hp : s.phase ≠ .init := fun hp => by rw [step_init hp] at h; cases h
  obtain ⟨t', ht', hto⟩ := step_answers hp
  rw [h] at ht'
  cases ht'
  exact hto

end Sys2Proof.Machine
end

