-- ==== Sys2Proof/Tests/Slice0.lean ====
section
/-! SUPPORT. Tests: the well-formedness smoke, hand-written decodings, one-step vectors of spec/95_test_vectors.md, and a witness for the hypotheses of every obligation that has any. -/

namespace Sys2Proof.Tests

open Sys2Proof.Machine Sys2Proof.Safety

/-! ### Helpers -/

/-- The default start state of 95_test_vectors.md: after `initialize` and a load. -/
def base : State := { State.reset with phase := .run }

/-- `base` with some registers set. -/
def withRegs (rs : List (Reg × Byte)) : State := rs.foldl (fun s r => s.setReg r.1 r.2) base

/-- `s` with bytes at an address. -/
def withBytes (s : State) (a : Nat) (bs : List Byte) : State := { s with mem := s.mem.load a bs }

/-- `s` with the instruction `w` at its `pc`, stepped once, answers a next state that satisfies `p`. -/
def after (s : State) (w : Word) (p : State → Bool) : Bool :=
  match step (s.placeInstruction w) with
  | .next t => p t
  | .fault _ => false
  | .refused _ => false

/-- The run-control registers record this fault, and `pc` is the faulting instruction's. -/
def faulted (code : BitVec 4) (addr : BitVec 32) (t : State) : Bool :=
  t.phase = .fault && t.fcause = code && t.faddr = addr && t.pc = 0x200#16

/-! ### Well-formedness: each check refuses an ill-formed term -/

theorem test_rom_of_3585_bytes_refused : romFits (List.replicate 3585 0#8) = false := by
  simp only [romFits, List.length_replicate]; decide

theorem test_rom_of_3584_bytes_accepted : romFits (List.replicate 3584 0#8) = true := by
  simp only [romFits, List.length_replicate]; decide

theorem test_key_index_16_refused : keyIndexOk 16 = false ∧ keyIndexOk 15 = true := by decide

/-- `Instr.wellFormed` refuses nothing: an out-of-range operand cannot be written, and its word is truncated. -/
theorem test_operands_have_their_width : (16#4 : Reg) = 0#4 ∧ (0x1000#12 : Addr12) = 0#12 := by decide

/-! ### Decoding: words written bit by bit from 30_encoding.md R92, R95 -/

theorem test_decode_fixed :
    decodeWord 0b0000000011100000#16 = .ok .cls ∧ decodeWord 0b0000000011101110#16 = .ok .ret := by decide

theorem test_decode_nnn :
    decodeWord 0b0001101010111100#16 = .ok (.jp 0xABC#12) ∧
    decodeWord 0b0010000000000001#16 = .ok (.call 0x001#12) ∧
    decodeWord 0b1010111111111111#16 = .ok (.ldINnn 0xFFF#12) ∧
    decodeWord 0b1011100000000000#16 = .ok (.jpV0 0x800#12) := by decide

theorem test_decode_xnn :
    decodeWord 0b0011010101000010#16 = .ok (.seVxNn 5#4 0x42#8) ∧
    decodeWord 0b0100010101000010#16 = .ok (.sneVxNn 5#4 0x42#8) ∧
    decodeWord 0b0110001100101010#16 = .ok (.ldVxNn 3#4 0x2A#8) ∧
    decodeWord 0b0111111110000001#16 = .ok (.addVxNn 15#4 0x81#8) ∧
    decodeWord 0b1100000111110000#16 = .ok (.rnd 1#4 0xF0#8) := by decide

theorem test_decode_xy_low :
    decodeWord 0b0101000100100000#16 = .ok (.seVxVy 1#4 2#4) ∧
    decodeWord 0b1000000100100000#16 = .ok (.ldVxVy 1#4 2#4) ∧
    decodeWord 0b1000000100100001#16 = .ok (.or 1#4 2#4) ∧
    decodeWord 0b1000000100100010#16 = .ok (.and 1#4 2#4) ∧
    decodeWord 0b1000000100100011#16 = .ok (.xor 1#4 2#4) ∧
    decodeWord 0b1000000100100100#16 = .ok (.addVxVy 1#4 2#4) := by decide

theorem test_decode_xy_high :
    decodeWord 0b1000000100100101#16 = .ok (.sub 1#4 2#4) ∧
    decodeWord 0b1000000110100110#16 = .ok (.shr 1#4 10#4) ∧
    decodeWord 0b1000000100100111#16 = .ok (.subn 1#4 2#4) ∧
    decodeWord 0b1000000110101110#16 = .ok (.shl 1#4 10#4) ∧
    decodeWord 0b1001010101100000#16 = .ok (.sneVxVy 5#4 6#4) ∧
    decodeWord 0b1101000100100101#16 = .ok (.drw 1#4 2#4 5#4) := by decide

theorem test_decode_x_keys_timers :
    decodeWord 0b1110001010011110#16 = .ok (.skp 2#4) ∧
    decodeWord 0b1110001010100001#16 = .ok (.sknp 2#4) ∧
    decodeWord 0b1111001000000111#16 = .ok (.ldVxDt 2#4) ∧
    decodeWord 0b1111001000001010#16 = .ok (.ldVxK 2#4) ∧
    decodeWord 0b1111001000010101#16 = .ok (.ldDtVx 2#4) ∧
    decodeWord 0b1111001000011000#16 = .ok (.ldStVx 2#4) := by decide

theorem test_decode_x_index_memory :
    decodeWord 0b1111010000011110#16 = .ok (.addIVx 4#4) ∧
    decodeWord 0b1111010000101001#16 = .ok (.ldFVx 4#4) ∧
    decodeWord 0b1111010000110011#16 = .ok (.ldBVx 4#4) ∧
    decodeWord 0b1111010001010101#16 = .ok (.ldMemVx 4#4) ∧
    decodeWord 0b1111010001100101#16 = .ok (.ldVxMem 4#4) := by decide

/-- T1 to T6: words one digit away from an instruction are unknown. -/
theorem test_decode_rejects :
    decodeWord 0x0000#16 = .error (.unknownOpcode 0x0000#16) ∧
    decodeWord 0x00E1#16 = .error (.unknownOpcode 0x00E1#16) ∧
    decodeWord 0x5AB1#16 = .error (.unknownOpcode 0x5AB1#16) ∧
    decodeWord 0x8128#16 = .error (.unknownOpcode 0x8128#16) ∧
    decodeWord 0xE19F#16 = .error (.unknownOpcode 0xE19F#16) ∧
    decodeWord 0xF1FF#16 = .error (.unknownOpcode 0xF1FF#16) := by decide

/-- Two bytes in big-endian order, the rest handed on; one byte is truncated (R90, R100). -/
theorem test_decode_bytes :
    decode [0x63#8, 0x2A#8, 0x99#8] = .ok (.ldVxNn 3#4 0x2A#8, [0x99#8]) ∧
    decode [0x63#8] = .error .truncated := by decide

/-- The encoder on the examples of R100. -/
theorem test_encode :
    encodeBytes (.ldVxNn 3#4 0x2A#8) = [0x63#8, 0x2A#8] ∧ encodeBytes (.drw 1#4 2#4 5#4) = [0xD1#8, 0x25#8] ∧
    encode (.ldVxMem 4#4) = 0xF465#16 ∧ encode (.sneVxVy 5#4 6#4) = 0x9560#16 := by decide

/-- The opcode map has 34 rows and no two overlap (R94, R95). -/
theorem test_opcode_map_disjoint :
    opcodeMap.length = 34 ∧
    opcodeMap.Pairwise (fun a b => a.matchBits &&& (a.mask &&& b.mask) ≠ b.matchBits &&& (a.mask &&& b.mask)) := by
  decide

theorem test_decode_table_word :
    decodeTableWord 16 0x632A = some (.ldVxNn 3#4 0x2A#8) ∧ decodeTableWord 16 0x0000 = none := by decide

/-- `step` runs a placed instruction as the first after reset. -/
theorem test_with_fetch_word :
    (match step (State.reset.withFetchWord 16 0x6007) with
      | .next t => decide (t.reg 0#4 = 7#8 ∧ t.pc = 0x202#16)
      | .fault _ => false
      | .refused _ => false) = true := by decide

/-! ### The step (T-STEP) -/

/-- T9: an unknown word is reported and the tick still happens. -/
theorem test_unknown_opcode : after { base with dt := 9#8 } 0x0123#16
    (fun t => t.pc = 0x202#16 && t.dt = 8#8 && t.diag = some 0x0123#16 && t.phase = .run) = true := by decide

/-- T7. -/
theorem test_tick : after { base with dt := 1#8, st := 200#8 } 0x6000#16 (fun t => t.dt = 0#8 && t.st = 199#8) = true := by
  decide

/-- T12: the word at 0xFFE runs and leaves `pc` at 0x1000. -/
theorem test_last_fetch : after { base with pc := 0xFFE#16 } 0x6007#16
    (fun t => t.reg 0#4 = 7#8 && t.pc = 0x1000#16 && t.phase = .run) = true := by decide

/-- T10: an odd `pc` faults and nothing ticks. -/
theorem test_odd_pc :
    (match step { base with pc := 0x201#16, dt := 5#8 } with
      | .next t => decide (t.phase = .fault ∧ t.fcause = 1#4 ∧ t.faddr = 0x201#32 ∧ t.pc = 0x201#16 ∧ t.dt = 5#8)
      | .fault _ => false
      | .refused _ => false) = true := by decide

/-! ### Control transfer (T-CF) -/

/-- T26. -/
theorem test_ret : after { base with sp := 2, stk := base.stk.set 1 0x3F0#16 } 0x00EE#16
    (fun t => t.sp = 1 && t.pc = 0x3F2#16 && t.slot 1 = 0x3F0#16) = true := by decide

/-- T25. -/
theorem test_ret_underflow : after base 0x00EE#16 (faulted 7#4 0#32) = true := by decide

/-- T20. -/
theorem test_jp : after base 0x1ABC#16 (fun t => t.pc = 0xABC#16) = true := by decide

/-- T23: the sixteenth nested call. -/
theorem test_call : after { base with sp := 15 } 0x2400#16
    (fun t => t.slot 15 = 0x200#16 && t.sp = 16 && t.pc = 0x400#16) = true := by decide

/-- T24. -/
theorem test_call_overflow : after { base with sp := 16 } 0x2400#16 (faulted 6#4 16#32) = true := by decide

/-- T27, T28. -/
theorem test_se_nn : after (withRegs [(5#4, 0x42#8)]) 0x3542#16 (fun t => t.pc = 0x204#16) = true ∧
    after (withRegs [(5#4, 0x42#8)]) 0x3543#16 (fun t => t.pc = 0x202#16) = true := by decide

/-- T29, T30. -/
theorem test_sne_nn : after (withRegs [(5#4, 0x42#8)]) 0x4542#16 (fun t => t.pc = 0x202#16) = true ∧
    after (withRegs [(5#4, 0x42#8)]) 0x4543#16 (fun t => t.pc = 0x204#16) = true := by decide

/-- T31, T32. -/
theorem test_se_reg : after base 0x5550#16 (fun t => t.pc = 0x204#16) = true ∧
    after (withRegs [(1#4, 1#8), (2#4, 2#8)]) 0x5120#16 (fun t => t.pc = 0x202#16) = true := by decide

/-- T33, T34. -/
theorem test_sne_reg : after base 0x9550#16 (fun t => t.pc = 0x202#16) = true ∧
    after (withRegs [(1#4, 1#8), (2#4, 2#8)]) 0x9120#16 (fun t => t.pc = 0x204#16) = true := by decide

/-- T37: the sum is not reduced. -/
theorem test_jp_v0 : after (withRegs [(0#4, 0xFF#8)]) 0xBFFF#16 (fun t => t.pc = 0x10FE#16) = true := by decide

/-! ### Arithmetic and logic (T-ALU) -/

/-- T40. -/
theorem test_ld_nn : after base 0x6FAB#16 (fun t => t.reg 15#4 = 0xAB#8) = true := by decide

/-- T41: the sum wraps and VF is untouched. -/
theorem test_add_nn : after (withRegs [(3#4, 0xF0#8), (15#4, 7#8)]) 0x7320#16
    (fun t => t.reg 3#4 = 0x10#8 && t.reg 15#4 = 7#8) = true := by decide

/-- T43. -/
theorem test_ld_reg : after (withRegs [(2#4, 0x77#8)]) 0x8120#16 (fun t => t.reg 1#4 = 0x77#8) = true := by decide

/-- T44. -/
theorem test_or : after (withRegs [(1#4, 0x55#8), (2#4, 0xAA#8), (15#4, 9#8)]) 0x8121#16
    (fun t => t.reg 1#4 = 0xFF#8 && t.reg 15#4 = 9#8) = true := by decide

/-- T45. -/
theorem test_and : after (withRegs [(1#4, 0x55#8), (2#4, 0xAA#8), (15#4, 9#8)]) 0x8122#16
    (fun t => t.reg 1#4 = 0x00#8 && t.reg 15#4 = 9#8) = true := by decide

/-- T46. -/
theorem test_xor : after (withRegs [(1#4, 0x5A#8), (15#4, 9#8)]) 0x8113#16
    (fun t => t.reg 1#4 = 0x00#8 && t.reg 15#4 = 9#8) = true := by decide

/-- T49, and T53 with the flag register as the second operand. -/
theorem test_add : after (withRegs [(1#4, 0xFF#8), (2#4, 0xFF#8)]) 0x8124#16
      (fun t => t.reg 15#4 = 1#8 && t.reg 1#4 = 0xFE#8) = true ∧
    after (withRegs [(1#4, 0xFF#8), (15#4, 0x02#8)]) 0x81F4#16
      (fun t => t.reg 15#4 = 1#8 && t.reg 1#4 = 0x00#8) = true := by decide

/-- T51: the flag register as the destination. -/
theorem test_add_into_vf : after (withRegs [(15#4, 0xFF#8), (1#4, 0x01#8)]) 0x8F14#16
    (fun t => t.reg 15#4 = 2#8) = true := by decide

/-- T58, T63. -/
theorem test_sub : after (withRegs [(1#4, 3#8), (2#4, 5#8)]) 0x8125#16
      (fun t => t.reg 15#4 = 0#8 && t.reg 1#4 = 0xFE#8) = true ∧
    after (withRegs [(1#4, 0x10#8), (15#4, 0x05#8)]) 0x81F5#16
      (fun t => t.reg 15#4 = 1#8 && t.reg 1#4 = 0x0F#8) = true := by decide

/-- T61. -/
theorem test_sub_into_vf : after (withRegs [(15#4, 0x05#8), (1#4, 0x03#8)]) 0x8F15#16
    (fun t => t.reg 15#4 = 0xFE#8) = true := by decide

/-- T67: in place, the second register ignored. -/
theorem test_shr : after (withRegs [(1#4, 0x04#8), (10#4, 0x33#8)]) 0x81A6#16
    (fun t => t.reg 15#4 = 0#8 && t.reg 1#4 = 0x02#8 && t.reg 10#4 = 0x33#8) = true := by decide

/-- T65. -/
theorem test_shr_flag : after (withRegs [(1#4, 0xFF#8)]) 0x8126#16
    (fun t => t.reg 15#4 = 1#8 && t.reg 1#4 = 0x7F#8) = true := by decide

/-- T70, T74. -/
theorem test_subn : after (withRegs [(1#4, 3#8), (2#4, 5#8)]) 0x8127#16
      (fun t => t.reg 15#4 = 1#8 && t.reg 1#4 = 2#8) = true ∧
    after (withRegs [(1#4, 0x10#8), (15#4, 0x20#8)]) 0x81F7#16
      (fun t => t.reg 15#4 = 1#8 && t.reg 1#4 = 0xF1#8) = true := by decide

/-- T73. -/
theorem test_subn_into_vf : after (withRegs [(15#4, 0x05#8), (1#4, 0x03#8)]) 0x8F17#16
    (fun t => t.reg 15#4 = 0x03#8) = true := by decide

/-- T78, T79. -/
theorem test_shl : after (withRegs [(1#4, 0xFF#8)]) 0x810E#16
      (fun t => t.reg 15#4 = 1#8 && t.reg 1#4 = 0xFE#8) = true ∧
    after (withRegs [(15#4, 0x80#8)]) 0x8F0E#16 (fun t => t.reg 15#4 = 2#8) = true := by decide

/-- T83: a zero mask gives 0 whatever the random byte is. -/
theorem test_rnd_zero_mask :
    ∃ t, step (base.placeInstruction 0xC300#16) = .next t ∧ t.reg 3#4 = 0#8 ∧ t.draws = 1 :=
  ⟨_, step_of_exec (fetches_placeInstruction base 0xC300#16) (by decide : decodeWord 0xC300#16 = .ok (.rnd 3#4 0x00#8)) rfl rfl, by simp, rfl⟩

/-! ### Index register and memory (T-IDX) -/

/-- T90. -/
theorem test_ld_i : after base 0xAFFF#16 (fun t => t.idx = 0xFFF#16) = true := by decide

/-- T91, T92. -/
theorem test_add_i : after ((withRegs [(1#4, 1#8)]).setIdx 0xFFF#16) 0xF11E#16
      (fun t => t.idx = 0x1000#16 && t.reg 15#4 = 0#8) = true ∧
    after ((withRegs [(1#4, 2#8)]).setIdx 0xFFFF#16) 0xF11E#16 (fun t => t.idx = 1#16) = true := by decide

/-- T96: the whole byte times five. -/
theorem test_ld_f : after (withRegs [(1#4, 0xFF#8)]) 0xF129#16 (fun t => t.idx = 0x4FB#16) = true := by decide

/-- T101: up to the top of memory. -/
theorem test_bcd : after ((withRegs [(1#4, 42#8)]).setIdx 0xFFD#16) 0xF133#16
    (fun t => t.mem.read 0xFFD = 0#8 && t.mem.read 0xFFE = 4#8 && t.mem.read 0xFFF = 2#8) = true := by decide

/-- T102, T104: past the top nothing is written; in the font region nothing is written. -/
theorem test_bcd_faults : after ((withRegs [(1#4, 42#8)]).setIdx 0xFFE#16) 0xF133#16
      (fun t => faulted 2#4 0x1000#32 t && t.mem.read 0xFFE = 0#8) = true ∧
    after (base.setIdx 0x04F#16) 0xF133#16 (fun t => faulted 3#4 0x04F#32 t && t.mem.read 0x050 = 0#8) = true := by
  decide

/-- T106. -/
theorem test_store_regs : after ((withRegs [(0#4, 0xAA#8)]).setIdx 0xFFF#16) 0xF055#16
    (fun t => t.mem.read 0xFFF = 0xAA#8 && t.idx = 0xFFF#16) = true := by decide

/-- T107, T109. -/
theorem test_store_regs_faults : after ((withRegs [(0#4, 0xAA#8)]).setIdx 0xFFF#16) 0xF155#16
      (fun t => faulted 2#4 0x1000#32 t && t.mem.read 0xFFF = 0#8) = true ∧
    after (base.setIdx 0x040#16) 0xFF55#16 (faulted 3#4 0x040#32) = true := by decide

/-- T111: the font region can be read. -/
theorem test_load_regs : after base 0xF465#16
    (fun t => t.reg 0#4 = 0xF0#8 && t.reg 1#4 = 0x90#8 && t.reg 4#4 = 0xF0#8 && t.reg 5#4 = 0#8 && t.idx = 0#16) = true := by
  decide

/-- T113. -/
theorem test_load_regs_fault : after ((withRegs [(0#4, 0x77#8)]).setIdx 0xFF1#16) 0xFF65#16
    (fun t => faulted 2#4 0x1000#32 t && t.reg 0#4 = 0x77#8) = true := by decide

/-! ### Display (T-DSP) -/

/-- T120. -/
theorem test_cls : after { withRegs [(15#4, 1#8)] with fb := BitVec.twoPow 2048 2047 } 0x00E0#16
    (fun t => t.fb = 0#2048 && t.reg 15#4 = 1#8 && t.redraw) = true := by decide +kernel

/-- T132: a collision; T134: the column from the old VF. -/
theorem test_drw : after (withBytes ({ base with fb := 1#2048 }.setIdx 0x300#16) 0x300 [0xC0#8]) 0xD011#16
      (fun t => !t.cell 0 && t.cell 1 && t.reg 15#4 = 1#8 && t.redraw) = true ∧
    after (withBytes ((withRegs [(15#4, 5#8)]).setIdx 0x300#16) 0x300 [0x80#8]) 0xDF11#16
      (fun t => t.cell 5 && !t.cell 0 && t.reg 15#4 = 0#8) = true := by decide +kernel

/-- T129, T136. -/
theorem test_drw_faults : after (withBytes ((withRegs [(0#4, 4#8), (1#4, 31#8)]).setIdx 0x300#16) 0x300 [0xFF#8, 0x80#8]) 0xD012#16
      (fun t => faulted 4#4 0x00200004#32 t && t.fb = 0#2048 && !t.redraw) = true ∧
    after (base.setIdx 0xFFF#16) 0xD012#16 (faulted 2#4 0x1000#32) = true := by decide +kernel

/-! ### Keys and timers (T-KEY) -/

/-- T140, T144. -/
theorem test_skp : after { withRegs [(2#4, 5#8)] with keys := base.keys.set 5 true } 0xE29E#16 (fun t => t.pc = 0x204#16) = true ∧
    after (withRegs [(2#4, 16#8)]) 0xE29E#16 (faulted 5#4 16#32) = true := by decide

/-- T143, T145. -/
theorem test_sknp : after { withRegs [(2#4, 5#8)] with keys := base.keys.set 5 true } 0xE2A1#16 (fun t => t.pc = 0x202#16) = true ∧
    after (withRegs [(2#4, 0xF5#8)]) 0xE2A1#16 (faulted 5#4 0xF5#32) = true := by decide

/-- T150: read before the tick. -/
theorem test_ld_dt : after { base with dt := 5#8 } 0xF207#16 (fun t => t.reg 2#4 = 5#8 && t.dt = 4#8) = true := by decide

/-- T146, T147. -/
theorem test_ld_k : after { base with dt := 3#8 } 0xF30A#16 (fun t => t.pc = 0x200#16 && t.reg 3#4 = 0#8 && t.dt = 2#8) = true ∧
    after { base with keys := (base.keys.set 9 true).set 3 true } 0xF30A#16 (fun t => t.reg 3#4 = 3#8 && t.pc = 0x202#16) = true := by
  decide

/-- T154. -/
theorem test_set_dt : after (withRegs [(2#4, 255#8)]) 0xF215#16 (fun t => t.dt = 254#8) = true := by decide

/-- T155. -/
theorem test_set_st : after { withRegs [(2#4, 3#8)] with dt := 7#8 } 0xF218#16 (fun t => t.st = 2#8 && t.dt = 6#8) = true := by
  decide

/-! ### The host's operations (T-HOST) -/

/-- T161. -/
theorem test_load_rom :
    (match State.reset.loadRom [0x12#8, 0x00#8] with
      | .next t => decide (t.mem.read 0x200 = 0x12#8 ∧ t.mem.read 0x201 = 0#8 ∧ t.phase = .run)
      | .fault _ => false
      | .refused _ => false) = true := by decide

/-- T165. -/
theorem test_set_key :
    (match base.setKey 4 true with
      | .next t => decide (t.key 4 = true ∧ t.key 5 = false)
      | .fault _ => false
      | .refused _ => false) = true := by decide

/-- D23: the suggested end of a run is seen at 1200 in 0x200. -/
theorem test_self_jump : atSelfJump (base.placeInstruction 0x1200#16) = true ∧ atSelfJump base = false := by decide

/-! ### Witnesses: states and operands that meet the hypotheses of each obligation that has any

Where the hypothesis is that a step or an instruction answers, the state it answers is the model's own. -/

/-- `base` with an instruction placed. -/
def placed (w : Word) : State := base.placeInstruction w

theorem placed_fetches (w : Word) : fetches (placed w) w := fetches_placeInstruction base w

theorem not_fetchable_of {pc : Word} (h : pcValid pc = false) : ¬fetchable pc := by
  rw [← pcValid_iff, h]; decide

theorem witness_EncodeAfterDecode : ∃ w i, decodeWord w = .ok i := ⟨0x632A#16, .ldVxNn 3#4 0x2A#8, by decide⟩

theorem witness_StepRunsDecodedInstruction : ∃ s w i, fetches s w ∧ decodeWord w = .ok i :=
  ⟨placed 0x8124#16, _, .addVxVy 1#4 2#4, placed_fetches _, by decide⟩

theorem witness_UnknownOpcodeIsReportedNoOp : ∃ s w e, fetches s w ∧ decodeWord w = .error e :=
  ⟨placed 0x00E1#16, _, .unknownOpcode 0x00E1#16, placed_fetches _, by decide⟩

/-- Odd, one word below the program region, and one word above the last fetch address. -/
theorem witness_InvalidFetchAddressFaults :
    (∃ s : State, s.phase = .run ∧ s.pc = 0x201#16 ∧ ¬fetchable s.pc) ∧
    (∃ s : State, s.phase = .run ∧ s.pc = 0x1FE#16 ∧ ¬fetchable s.pc) ∧
    ∃ s : State, s.phase = .run ∧ s.pc = 0x1000#16 ∧ ¬fetchable s.pc :=
  ⟨⟨base.setPc 0x201#16, rfl, rfl, not_fetchable_of (by decide)⟩, ⟨base.setPc 0x1FE#16, rfl, rfl, not_fetchable_of (by decide)⟩,
   ⟨base.setPc 0x1000#16, rfl, rfl, not_fetchable_of (by decide)⟩⟩

theorem witness_StepOutsideRun : (∃ s : State, s.phase = .fault) ∧ ∃ s : State, s.phase = .init :=
  ⟨⟨{ base with phase := .fault, fcause := 7#4 }, rfl⟩, ⟨State.reset, rfl⟩⟩

theorem witness_RunStepAlwaysAnswers : ∃ s : State, s.phase = .run := ⟨base, rfl⟩

/-- A completed step whose instruction writes neither timer; the run statements share it. -/
theorem completed_step : ∃ s t w, fetches s w ∧ step s = .next t ∧ s.phase = .run ∧ t.phase = .run ∧
    decodeWord w = .ok (.ldVxNn 0#4 0#8) :=
  ⟨placed 0x6000#16, _, _, placed_fetches _, step_of_exec (placed_fetches _) (by decide : _ = Except.ok (Instr.ldVxNn 0#4 0#8)) rfl rfl,
    rfl, rfl, by decide⟩

theorem witness_CompletedStepTicksTimers : ∃ s t w, fetches s w ∧ step s = .next t ∧ t.phase = .run ∧
    (∀ x, decodeWord w ≠ .ok (.ldDtVx x)) ∧ ∀ x, decodeWord w ≠ .ok (.ldStVx x) := by
  obtain ⟨s, t, w, hf, hs, -, ht, hd⟩ := completed_step
  exact ⟨s, t, w, hf, hs, ht, by simp [hd], by simp [hd]⟩

/-- A step that redraws, and a step that reports. -/
theorem witness_OutputsTellWhatRan :
    (∃ s t, s.phase = .run ∧ step s = .next t ∧ t.redraw = true) ∧
    ∃ s t, s.phase = .run ∧ step s = .next t ∧ t.diag = some 0x0000#16 :=
  ⟨⟨placed 0x00E0#16, _, rfl, step_of_exec (placed_fetches _) (by decide : _ = Except.ok Instr.cls) rfl rfl, rfl⟩,
   ⟨placed 0x0000#16, _, rfl,
    step_of_unknown (placed_fetches _) (by decide : _ = Except.error (DecodeError.unknownOpcode 0x0000#16)), rfl⟩⟩

theorem witness_FaultedStepIsPrecise : ∃ s t : State, s.phase = .run ∧ step s = .next t ∧ t.phase = .fault :=
  ⟨base.setPc 0x201#16, _, rfl, step_of_invalid rfl (by decide), rfl⟩

/-- 00EE on an empty stack and 2NNN on a full one. -/
theorem witness_OnlyListedInstructionsFault :
    (∃ s t, exec .ret s = .next t ∧ s.phase ≠ .fault ∧ t.phase = .fault) ∧
    ∃ s t, exec (.call 0x400#12) s = .next t ∧ s.phase ≠ .fault ∧ t.phase = .fault :=
  ⟨⟨base, _, rfl, by decide, rfl⟩, ⟨{ base with sp := 16 }, _, rfl, by decide, rfl⟩⟩

theorem witness_StepNeverWritesKeysOrFont : ∃ s t, step s = .next t := by
  obtain ⟨s, t, -, -, hs, -⟩ := completed_step
  exact ⟨s, t, hs⟩

theorem witness_RandomByteOnlyReachesRnd :
    ∃ s t, (∀ w x nn, fetches s w → decodeWord w ≠ .ok (.rnd x nn)) ∧ step s = .next t := by
  obtain ⟨s, t, w, hf, hs, -, -, hd⟩ := completed_step
  refine ⟨s, t, fun w' x nn hf' => ?_, hs⟩
  rw [(fetches_iff.mp hf').2.2, ← (fetches_iff.mp hf).2.2, hd]
  simp

theorem witness_EachStoreHasItsWriters : ∃ s t, exec .cls s = .next t := ⟨base, _, rfl⟩

theorem witness_FlagRegisterHasItsWriters :
    ∃ s t, exec (.ldVxNn 15#4 1#8) s = .next t ∧ t.reg 15#4 ≠ s.reg 15#4 := ⟨base, _, rfl, by decide⟩

/-- A running state with an entry on the stack meets the premises of the three step invariants. -/
theorem witness_StepKeepsInvariants : ∃ s t, memoryCanonical s ∧ pcAndStackBounded s ∧ faultRecorded s ∧
    0 < s.sp.val ∧ step s = .next t :=
  ⟨State.placeInstruction { base with sp := 1, stk := base.stk.set 0 0x200#16 } 0x6000#16, _, by unfold memoryCanonical; decide,
    ⟨by decide, fun k hk => by
      have : k = 0 := Nat.lt_one_iff.mp hk
      subst this; exact pcValid_iff.mp (by decide)⟩,
    ⟨by decide, by decide, by decide⟩, by decide,
    step_of_exec (fetches_placeInstruction _ _) (by decide : _ = Except.ok (Instr.ldVxNn 0#4 0#8)) rfl rfl⟩

/-- Reset and a key press. -/
theorem witness_EveryMoveKeepsInvariants : ∃ t, HostOp.apply (.setKey 15 true) State.reset = .next t ∧
    memoryCanonical State.reset ∧ pcAndStackBounded State.reset ∧ faultRecorded State.reset ∧ cleanWhileInit State.reset := by
  refine ⟨_, rfl, rfl, ⟨by decide, fun k hk => absurd hk (Nat.not_lt_zero k)⟩, ⟨by decide, by decide, by decide⟩, fun _ => ?_⟩
  refine ⟨by decide, rfl, rfl, rfl, by decide, rfl, rfl, fun k _ => by simp [State.cell, State.reset], fun a ha => ?_⟩
  simp only [State.reset, Memory.read, Memory.unlisted, Config.fontSize]
  rw [if_neg (by omega)]

/-- The largest odd target of 1NNN and the largest sum of BNNN. -/
theorem witness_JumpSetsPc : ∃ s t u : State, exec (.jp 0xFFF#12) s = .next t ∧ u.phase = .run ∧ u.pc = t.pc ∧ ¬fetchable u.pc :=
  ⟨base, base.setPc 0xFFF#16, base.setPc 0xFFF#16, rfl, rfl, rfl, not_fetchable_of (by decide)⟩

theorem witness_IndexedJumpSetsPc :
    ∃ s t u : State, exec (.jpV0 0xFFF#12) s = .next t ∧ u.phase = .run ∧ u.pc = t.pc ∧ ¬fetchable u.pc := by
  refine ⟨withRegs [(0#4, 0xFF#8)], _, base.setPc 0x10FE#16, rfl, rfl, by decide, not_fetchable_of (by decide)⟩

theorem witness_SkipsOnEquality :
    ∃ s : State, s.reg 5#4 = 0x42#8 ∧ s.reg 5#4 ≠ 0x43#8 ∧ s.reg 5#4 = s.reg 5#4 ∧ s.reg 5#4 ≠ s.reg 6#4 :=
  ⟨withRegs [(5#4, 0x42#8)], by decide⟩

/-- The first and the sixteenth call. -/
theorem witness_CallPushesItsAddress : (∃ s : State, s.sp.val = 0 ∧ s.sp.val < 16) ∧ ∃ s : State, s.sp.val = 15 ∧ s.sp.val < 16 :=
  ⟨⟨base, by decide⟩, ⟨{ base with sp := 15 }, by decide⟩⟩

theorem witness_CallThenReturnRoundTrip : ∃ s : State, s.sp.val = 15 ∧ s.sp.val < 16 := ⟨{ base with sp := 15 }, by decide⟩

/-- The last return and a return from the deepest call. -/
theorem witness_ReturnPopsPlusTwo : (∃ s : State, s.sp.val = 1 ∧ s.sp.val ≠ 0) ∧ ∃ s : State, s.sp.val = 16 ∧ s.sp.val ≠ 0 :=
  ⟨⟨{ base with sp := 1 }, by decide⟩, ⟨{ base with sp := 16 }, by decide⟩⟩

theorem witness_StackAndKeyFaults :
    (∃ s : State, s.sp.val = 16) ∧ (∃ s : State, s.sp.val = 0) ∧ ∃ s : State, s.reg 2#4 = 16#8 ∧ 15 < (s.reg 2#4).toNat :=
  ⟨⟨{ base with sp := 16 }, rfl⟩, ⟨base, rfl⟩, ⟨withRegs [(2#4, 16#8)], by decide⟩⟩

/-- The four register cases of 8XY4, 8XY5 and 8XY7, the two of 8XY6 and 8XYE. -/
theorem witness_flag_register_cases :
    (∃ x y : Reg, x ≠ 15#4 ∧ y ≠ 15#4) ∧ (∃ x y : Reg, x ≠ 15#4 ∧ y = 15#4) ∧
    (∃ x y : Reg, x = 15#4 ∧ y ≠ 15#4) ∧ ∃ x y : Reg, x = 15#4 ∧ y = 15#4 :=
  ⟨⟨14#4, 0#4, by decide⟩, ⟨14#4, 15#4, by decide⟩, ⟨15#4, 14#4, by decide⟩, ⟨15#4, 15#4, by decide⟩⟩

/-- The lowest and the highest place of the three digits. -/
theorem witness_BcdStores :
    (∃ s : State, s.idx = 0x050#16 ∧ 0x050 ≤ s.idx.toNat ∧ s.idx.toNat + 2 ≤ 0xFFF) ∧
    ∃ s : State, s.idx = 0xFFD#16 ∧ 0x050 ≤ s.idx.toNat ∧ s.idx.toNat + 2 ≤ 0xFFF :=
  ⟨⟨base.setIdx 0x050#16, by decide⟩, ⟨base.setIdx 0xFFD#16, by decide⟩⟩

/-- Sixteen registers at the lowest place and at the highest. -/
theorem witness_RegisterStores :
    (∃ s : State, s.idx = 0x050#16 ∧ 0x050 ≤ s.idx.toNat ∧ s.idx.toNat + (15#4 : Reg).toNat ≤ 0xFFF) ∧
    ∃ s : State, s.idx = 0xFF0#16 ∧ 0x050 ≤ s.idx.toNat ∧ s.idx.toNat + (15#4 : Reg).toNat ≤ 0xFFF :=
  ⟨⟨base.setIdx 0x050#16, by decide⟩, ⟨base.setIdx 0xFF0#16, by decide⟩⟩

theorem witness_RegisterLoads :
    (∃ s : State, s.idx = 0x000#16 ∧ s.idx.toNat + (15#4 : Reg).toNat ≤ 0xFFF) ∧
    ∃ s : State, s.idx = 0xFF0#16 ∧ s.idx.toNat + (15#4 : Reg).toNat ≤ 0xFFF :=
  ⟨⟨base.setIdx 0x000#16, by decide⟩, ⟨base.setIdx 0xFF0#16, by decide⟩⟩

theorem witness_RangeFaults :
    (∃ s : State, s.idx = 0xFFE#16 ∧ 0xFFF < s.idx.toNat + 2) ∧ (∃ s : State, s.idx = 0x04F#16 ∧ s.idx.toNat ≤ 0x04F) ∧
    ∃ (s : State) (x : Reg), s.idx = 0xFFF#16 ∧ x = 1#4 ∧ 0xFFF < s.idx.toNat + x.toNat :=
  ⟨⟨base.setIdx 0xFFE#16, by decide⟩, ⟨base.setIdx 0x04F#16, by decide⟩, ⟨base.setIdx 0xFFF#16, 1#4, by decide⟩⟩

theorem witness_StoredWordIsFetchedNext : ∃ (s : State) (w w' : Word) (x : Reg), fetches s w ∧
    decodeWord w = .ok (.ldMemVx x) ∧ 1 ≤ x.toNat ∧ s.idx.toNat = s.pc.toNat + 2 ∧ s.idx.toNat + x.toNat ≤ 0xFFF ∧
    w'.toNat = (s.reg 0#4).toNat * 256 + (s.reg 1#4).toNat :=
  ⟨State.placeInstruction ((withRegs [(0#4, 0x12#8), (1#4, 0x08#8)]).setIdx 0x202#16) 0xF155#16, 0xF155#16, 0x1208#16, 1#4,
    fetches_placeInstruction _ _, by decide⟩

/-- A one-row sprite at cell 0 whose byte is 0x80: `sprite fb` has the cells `fb` below it. -/
def sprite (fb : Framebuffer) : State := { withBytes (base.setIdx 0x300#16) 0x300 [0x80#8] with fb := fb }

theorem sprite_bit (fb : Framebuffer) (c : Nat) :
    spriteBitSet (sprite fb) 0 c ↔ (0x80#8).getLsbD (7 - c) = true := by
  have h : (sprite fb).mem.read ((sprite fb).idx.toNat + 0) = 0x80#8 := rfl
  rw [spriteBitSet, h]

theorem sprite_bits (fb : Framebuffer) {r c : Nat} (hr : r < (1#4 : BitVec 4).toNat) (hc : c < 8)
    (hb : spriteBitSet (sprite fb) r c) : r = 0 ∧ c = 0 := by
  have hr0 : r = 0 := Nat.lt_one_iff.mp hr
  subst hr0
  rw [sprite_bit] at hb
  exact ⟨rfl, (by decide : ∀ c, c < 8 → (0x80#8).getLsbD (7 - c) = true → c = 0) c hc hb⟩

theorem sprite_inside (fb : Framebuffer) : spriteInside (sprite fb) 0#4 1#4 1#4 := by
  intro r c hr hc hb
  obtain ⟨rfl, rfl⟩ := sprite_bits fb hr hc hb
  exact ⟨(by decide : 0 ≤ 63), (by decide : 0 ≤ 31)⟩

theorem sprite_covers (fb : Framebuffer) : spriteCovers (sprite fb) 0#4 1#4 1#4 0 :=
  ⟨0, 0, by decide, by decide, (sprite_bit fb 0).mpr (by decide), rfl⟩

/-- Both clauses about VF: the covered cell set, and clear; a cell covered, and one not. -/
theorem witness_DrawTogglesCoveredCells :
    (∃ s, spriteReadable s 1#4 ∧ spriteInside s 0#4 1#4 1#4 ∧ ∃ k, spriteCovers s 0#4 1#4 1#4 k ∧ s.cell k = true) ∧
    ∃ s, spriteReadable s 1#4 ∧ spriteInside s 0#4 1#4 1#4 ∧ (∀ k, spriteCovers s 0#4 1#4 1#4 k → s.cell k = false) ∧
      spriteCovers s 0#4 1#4 1#4 0 ∧ ¬spriteCovers s 0#4 1#4 1#4 2047 := by
  refine ⟨⟨sprite 1#2048, Or.inr (by decide), sprite_inside _, 0, sprite_covers _, by simp [State.cell, sprite]⟩,
    ⟨sprite 0#2048, Or.inr (by decide), sprite_inside _, fun k _ => by simp [State.cell, sprite], sprite_covers _, ?_⟩⟩
  rintro ⟨r, c, hr, hc, hb, h⟩
  obtain ⟨rfl, rfl⟩ := sprite_bits _ hr hc hb
  revert h; decide

/-- A two-row sprite whose second row lies above the top. -/
theorem witness_DrawOutOfMemoryFaults : ∃ s, ¬spriteReadable s 2#4 := by
  refine ⟨base.setIdx 0xFFF#16, ?_⟩
  unfold spriteReadable; decide

/-- The start column just outside, 64. -/
theorem witness_DrawOutsideGridFaults : ∃ s r c, spriteReadable s 1#4 ∧ r < (1#4 : BitVec 4).toNat ∧ c < 8 ∧
    spriteBitSet s r c ∧ ¬targetInside s 0#4 1#4 r c ∧
    ∀ r' c', r' < (1#4 : BitVec 4).toNat → c' < 8 → spriteBitSet s r' c' → r' < r ∨ (r' = r ∧ c' < c) →
      targetInside s 0#4 1#4 r' c' := by
  refine ⟨(sprite 0#2048).setReg 0#4 64#8, 0, 0, Or.inr (by decide), by decide, by decide, rfl, ?_, fun r' c' _ _ _ h => by omega⟩
  unfold targetInside; decide

theorem witness_DrawTwiceRestores :
    ∃ s, (0#4 : Reg) ≠ 15#4 ∧ (1#4 : Reg) ≠ 15#4 ∧ spriteReadable s 1#4 ∧ spriteInside s 0#4 1#4 1#4 :=
  ⟨sprite 1#2048, by decide, by decide, Or.inr (by decide), sprite_inside _⟩

/-- Key 15 pressed and not pressed. -/
theorem witness_SkipOnKey :
    (∃ s : State, (s.reg 2#4).toNat = 15 ∧ s.key (s.reg 2#4).toNat = true) ∧
    ∃ s : State, (s.reg 2#4).toNat = 15 ∧ s.key (s.reg 2#4).toNat = false :=
  ⟨⟨{ withRegs [(2#4, 15#8)] with keys := base.keys.set 15 true }, by decide⟩, ⟨withRegs [(2#4, 15#8)], by decide⟩⟩

/-- No key, only key 15, and key 0. -/
theorem witness_WaitForKey : (∃ s : State, ∀ k, k < 16 → s.key k = false) ∧
    (∃ s : State, s.key 15 = true ∧ ∀ j, j < 15 → s.key j = false) ∧
    ∃ s : State, s.key 0 = true ∧ ∀ j, j < 0 → s.key j = false :=
  ⟨⟨base, by decide⟩, ⟨{ base with keys := base.keys.set 15 true }, by decide⟩,
   ⟨{ base with keys := base.keys.set 0 true }, by decide⟩⟩

theorem witness_ReadDelayTimer : ∃ s w, fetches s w ∧ decodeWord w = .ok (.ldVxDt 2#4) :=
  ⟨placed 0xF207#16, _, placed_fetches _, by decide⟩

theorem witness_WriteTimers : (∃ s w, fetches s w ∧ decodeWord w = .ok (.ldDtVx 2#4)) ∧
    (∃ s w, fetches s w ∧ decodeWord w = .ok (.ldStVx 2#4)) ∧ ∃ s t, step s = .next t :=
  ⟨⟨placed 0xF215#16, _, placed_fetches _, by decide⟩, ⟨placed 0xF218#16, _, placed_fetches _, by decide⟩,
   witness_StepNeverWritesKeysOrFont⟩

theorem witness_InitializeResetsEverything :
    ∃ op s t, s.phase = .fault ∧ HostOp.apply op s = .next t ∧ t.phase ≠ .fault :=
  ⟨.initCore ⟨defaultFont.toArray, by decide⟩, { base with phase := .fault, fcause := 7#4 }, _, rfl, rfl, by decide⟩

theorem witness_ResetIsInitializeWithDefaultFont : ∃ s : State, s.draws = 0 := ⟨base, rfl⟩

/-- Images of 3584 and 3585 bytes in INIT, and a load outside INIT. -/
theorem witness_LoadRomOutcomes :
    (∃ (s : State) (bytes : List Byte), s.phase = .init ∧ bytes.length = 3584) ∧
    (∃ (s : State) (bytes : List Byte), s.phase = .init ∧ bytes.length = 3585) ∧ ∃ s : State, s.phase ≠ .init :=
  ⟨⟨State.reset, List.replicate 3584 0x12#8, rfl, List.length_replicate ..⟩,
   ⟨State.reset, List.replicate 3585 0x12#8, rfl, List.length_replicate ..⟩, ⟨base, by decide⟩⟩

theorem witness_SetKeyWritesOneFlag : (∃ index, index = 15 ∧ index ≤ 15) ∧ ∃ index, index = 16 ∧ 15 < index :=
  ⟨⟨15, by decide⟩, ⟨16, by decide⟩⟩

/-- The shortest and the longest image the statement speaks of. -/
theorem witness_BootFetchesFirstTwoBytes : ∃ (hi lo : Byte) (w : Word), w.toNat = hi.toNat * 256 + lo.toNat ∧
    (∃ rest : List Byte, rest.length + 2 = 2) ∧ ∃ rest : List Byte, rest.length + 2 = 3584 :=
  ⟨0x12#8, 0x00#8, 0x1200#16, by decide, ⟨[], rfl⟩, ⟨List.replicate 3582 0#8, by rw [List.length_replicate]⟩⟩

/-- One move of each kind that answers. -/
theorem witness_PhaseTransitions :
    (∃ t, HostOp.apply (.loadRom [0x12#8, 0x00#8]) State.reset = .next t) ∧
    (∃ t, HostOp.apply (.setKey 0 true) base = .next t) ∧
    (∃ s t, HostOp.apply .step s = .next t ∧ s.phase = .run) ∧ ∃ s t, HostOp.apply .step s = .next t ∧ s.phase = .fault := by
  obtain ⟨s, t, -, -, hs, hr, -⟩ := completed_step
  exact ⟨⟨_, rfl⟩, ⟨_, rfl⟩, ⟨s, t, hs, hr⟩, ⟨{ base with phase := .fault, fcause := 7#4 }, _, rfl, rfl⟩⟩

end Sys2Proof.Tests
end

section
/-! PROOF. What a step answers in `redraw` and `diag` (40_step_cycle.md R127). -/

namespace Sys2Proof.Machine

open Sys2Proof.Safety

/-- A step that fetches `w` fetches no other word. -/
theorem fetches_iff_eq {s : State} {w w' : Word} (hf : fetches s w) : fetches s w' ↔ w = w' := by
  constructor
  · intro hf'
    obtain ⟨-, -, hw⟩ := fetches_iff.mp hf
    obtain ⟨-, -, hw'⟩ := fetches_iff.mp hf'
    exact hw.trans hw'.symm
  · rintro rfl
    exact hf

/-- A step that fetches an instruction fetches no unknown word. -/
theorem not_fetches_unknown {s : State} {w w' : Word} {i : Instr} (hf : fetches s w') (hd : decodeWord w' = .ok i) :
    ¬(fetches s w ∧ ∃ e, decodeWord w = .error e) := by
  rintro ⟨hw, e, he⟩
  obtain rfl := (fetches_iff_eq hf).mp hw
  simp [hd] at he

/-! ### Which instructions signal a redraw -/

/-- The two instructions that write the framebuffer and signal it, 00E0 and DXYN (44_display.md R211, R212). -/
def Instr.redraws (i : Instr) : Prop := i = .cls ∨ ∃ x y n, i = .drw x y n

/-- 00E0 and DXYN, when they complete, signal the redraw. -/
theorem exec_signals_redraw {i : Instr} {s u : State} (hi : Instr.redraws i) (he : exec i s = .next u)
    (hu : u.phase ≠ .fault) : u.redraw = true := by
  obtain rfl | ⟨x, y, n, rfl⟩ := hi
  · cases he
    rfl
  · rcases execDrw_cases x y n s with ⟨-, -, ht⟩ | ⟨-, -, ht⟩ | ⟨-, p, -, -, -, ht⟩ <;> cases he.symm.trans ht
    · rfl
    · exact absurd rfl hu
    · exact absurd rfl hu

/-- A store at `I` leaves the framebuffer and the redraw signal alone, whether it completes or faults. -/
theorem storeAtIdx_keeps_screen {s u : State} {bs : List Byte} (h0 : bs ≠ [])
    (he : conclude s (s.storeAtIdx bs) = .next u) : u.fb = s.fb ∧ u.redraw = s.redraw := by
  rcases storeAtIdx_cases s bs h0 with ⟨-, -, t, ht, -, -, hts⟩ | ⟨-, ht⟩ | ⟨-, ht⟩ <;> cases he.symm.trans ht
  · rw [hts]
    exact ⟨rfl, rfl⟩
  · exact ⟨rfl, rfl⟩
  · exact ⟨rfl, rfl⟩

/-- Every instruction but 00E0 and DXYN leaves the framebuffer and the redraw signal alone, whether it
completes or faults. -/
theorem exec_keeps_screen {i : Instr} {s u : State} (hi : ¬Instr.redraws i) (he : exec i s = .next u) :
    u.fb = s.fb ∧ u.redraw = s.redraw := by
  cases i with
  | cls => exact absurd (Or.inl rfl) hi
  | drw x y n => exact absurd (Or.inr ⟨x, y, n, rfl⟩) hi
  | ret =>
    rcases execRet_cases s with ⟨-, t, ht, -, -, hts⟩ | ⟨-, ht⟩ <;> cases he.symm.trans ht
    · rw [hts]
      exact ⟨rfl, rfl⟩
    · exact ⟨rfl, rfl⟩
  | call nnn =>
    rcases execCall_cases nnn s with ⟨-, t, ht, -, -, -, -, hts⟩ | ⟨-, ht⟩ <;> cases he.symm.trans ht
    · rw [hts]
      exact ⟨rfl, rfl⟩
    · exact ⟨rfl, rfl⟩
  | skp x => rcases execSkp_cases x s with ⟨-, ht⟩ | ⟨-, ht⟩ <;> cases he.symm.trans ht <;> exact ⟨rfl, rfl⟩
  | sknp x => rcases execSknp_cases x s with ⟨-, ht⟩ | ⟨-, ht⟩ <;> cases he.symm.trans ht <;> exact ⟨rfl, rfl⟩
  | ldVxK x =>
    simp only [exec, execLdVxK] at he
    split at he <;> cases he <;> exact ⟨rfl, rfl⟩
  | ldBVx x => exact storeAtIdx_keeps_screen (by simp [bcdDigits]) he
  | ldMemVx x => exact storeAtIdx_keeps_screen (s.regsUpTo_ne_nil x) he
  | ldVxMem x =>
    rcases execLdVxMem_cases x s with ⟨-, t, ht, -, hts⟩ | ⟨-, ht⟩ <;> cases he.symm.trans ht
    · rw [hts]
      exact ⟨rfl, rfl⟩
    · exact ⟨rfl, rfl⟩
  | _ =>
    cases he
    exact ⟨rfl, rfl⟩

/-! ### The outputs of a step -/

/-- `redraw` is 1 exactly for a completed 00E0 or DXYN. -/
theorem step_redraw_iff {s t : State} (h : step s = .next t) :
    t.redraw = true ↔ t.phase = .run ∧ ∃ w, fetches s w ∧
      (decodeWord w = .ok .cls ∨ ∃ x y n, decodeWord w = .ok (.drw x y n)) := by
  cases step_cases h with
  | stopped hp ht => simp [ht, hp]
  | invalid hp hv ht => simp [ht]
  | unknown w e hf hd ht => simp [ht, fetches_iff_eq hf, hd]
  | faulted w i trap hf hd hm he ht => simp [ht]
  | completed w i u hf hd he hc ht =>
    have hu : u.phase = .run := by simp [hc.phase, hf.1]
    have hi : u.redraw = true ↔ Instr.redraws i := by
      refine ⟨fun hr => by_contra fun hi => ?_, fun hi => exec_signals_redraw hi he (by simp [hu])⟩
      simp [(exec_keeps_screen hi he).2] at hr
    simp [ht, hu, hi, fetches_iff_eq hf, hd, Instr.redraws]

/-- A step that answers no `redraw` leaves the framebuffer alone. -/
theorem step_keeps_fb_of_no_redraw {s t : State} (h : step s = .next t) (hr : t.redraw = false) : t.fb = s.fb := by
  cases step_cases h with
  | stopped hp ht => simp [ht]
  | invalid hp hv ht => simp [ht]
  | unknown w e hf hd ht => simp [ht]
  | faulted w i trap hf hd hm he ht => simp [ht]
  | completed w i u hf hd he hc ht =>
    subst ht
    have hu : u.phase ≠ .fault := by simp [hc.phase, hf.1]
    have hi : ¬Instr.redraws i := fun hi => by simp [exec_signals_redraw hi he hu] at hr
    exact (exec_keeps_screen hi he).1

/-- `diag` is set exactly by a fetched word that is no instruction, to that word. -/
theorem step_diag_iff {s t : State} (h : step s = .next t) (w : Word) :
    t.diag = some w ↔ fetches s w ∧ ∃ e, decodeWord w = .error e := by
  cases step_cases h with
  | stopped hp ht => simp [ht, fetches_iff, hp]
  | invalid hp hv ht => simp [ht, fetches_iff, hv]
  | unknown w' e hf hd ht =>
    simp only [ht, tick_diag, execUnknown_diag, Option.some.injEq, fetches_iff_eq hf]
    constructor
    · rintro rfl
      exact ⟨rfl, e, hd⟩
    · exact And.left
  | completed w' i u hf hd he hc ht =>
    exact iff_of_false (by simp [ht, hc.diag]) (not_fetches_unknown hf hd)
  | faulted w' i trap hf hd hm he ht =>
    exact iff_of_false (by simp [ht]) (not_fetches_unknown hf hd)

/-- Settles O11: it holds, by the five ways a step can go; only a completed 00E0 or DXYN signals a redraw
or writes the framebuffer, and only the unknown-opcode rule writes `diag`. -/
theorem outputsTellWhatRan : Obligations.OutputsTellWhatRan := by
  intro s t h
  refine ⟨step_redraw_iff h, fun hs => ?_, step_diag_iff h⟩
  by_contra hr
  have hfb := step_keeps_fb_of_no_redraw h (by simpa using hr)
  exact hs fun k _ => congrArg (·.getLsbD k) hfb

end Sys2Proof.Machine
end

section
/-! PROOF. The skips on registers and immediates (41_control_flow.md R144 to R147). -/

namespace Sys2Proof.Machine

open Sys2Proof.Safety

/-- Writing `pc` leaves every other part of the state alone. -/
theorem changesOnly_setPc (s : State) (w : Word) : changesOnly [.pc] s (s.setPc w) := by
  intro p hp
  cases p with
  | pc => exact absurd (List.mem_singleton_self _) hp
  | _ => simp [Part.same]

/-- A skip is a write of `pc`. -/
theorem skipIf_eq_setPc (c : Bool) (s : State) :
    s.skipIf c = s.setPc (if c then s.pc + 4#16 else s.pc + 2#16) := rfl

/-- A skip leaves every part of the state but `pc` alone. -/
theorem changesOnly_skipIf (c : Bool) (s : State) : changesOnly [.pc] s (s.skipIf c) := by
  rw [skipIf_eq_setPc]
  exact changesOnly_setPc s _

/-- What an instruction that ends in a skip answers, where `P` makes the tested condition true and `Q` makes
it false: only `pc` changes, by 4 under `P` and by 2 under `Q`. -/
theorem skip_outcome {i : Instr} {s : State} {c : Bool} {P Q : Prop} (he : exec i s = .next (s.skipIf c))
    (hP : P → c = true) (hQ : Q → c = false) :
    ∃ t, exec i s = .next t ∧ changesOnly [.pc] s t ∧ (P → t.pc = s.pc + 4#16) ∧ (Q → t.pc = s.pc + 2#16) := by
  refine ⟨s.skipIf c, he, changesOnly_skipIf c s, fun hp => ?_, fun hq => ?_⟩
  · simp [hP hp]
  · simp [hQ hq]

/-- Settles O25: it holds, each of the four being a skip on a comparison of two bytes. -/
theorem skipsOnEquality : Obligations.SkipsOnEquality := by
  intro s x y nn
  refine ⟨?seVxNn, ?sneVxNn, ?seVxVy, ?sneVxVy⟩
  case seVxNn => exact skip_outcome rfl beq_iff_eq.mpr beq_eq_false_iff_ne.mpr
  case sneVxNn => exact skip_outcome rfl bne_iff_ne.mpr bne_eq_false_iff_eq.mpr
  case seVxVy => exact skip_outcome rfl beq_iff_eq.mpr beq_eq_false_iff_ne.mpr
  case sneVxVy => exact skip_outcome rfl bne_iff_ne.mpr bne_eq_false_iff_eq.mpr

end Sys2Proof.Machine
end

section
/-! PROOF. The instructions that write one register and no flag: immediate load and add, copy, bitwise logic
(42_alu.md R161 to R166). -/

namespace Sys2Proof.Machine

open Sys2Proof.Safety

/-- A register write with the advance leaves every part of the state but the registers and `pc` alone. -/
theorem changesOnly_advance_setReg (s : State) (x : Reg) (b : Byte) :
    changesOnly [.regs, .pc] s (s.setReg x b).advance := by
  intro p hp
  cases p with
  | regs | pc => simp at hp
  | _ => simp [Part.same]

/-- A register write with the advance leaves every other register alone. -/
theorem regsKeptBut_advance_setReg (s : State) (x : Reg) (b : Byte) :
    regsKeptBut [x] s (s.setReg x b).advance := by
  intro r hr
  have hxr : x ≠ r := fun h => hr (List.mem_singleton.mpr h.symm)
  rw [advance_reg, State.reg_setReg, if_neg hxr]

/-- What an instruction that writes `b` to `V[x]` and advances answers: `V[x]` is `b`, `pc` is 2 more, every
other register and every other part of the state is kept. -/
theorem setReg_outcome {i : Instr} {s : State} {x : Reg} {b : Byte}
    (he : exec i s = .next (s.setReg x b).advance) :
    ∃ t, exec i s = .next t ∧ t.reg x = b ∧ t.pc = s.pc + 2#16 ∧ regsKeptBut [x] s t ∧
      changesOnly [.regs, .pc] s t :=
  ⟨(s.setReg x b).advance, he, by simp, rfl, regsKeptBut_advance_setReg s x b, changesOnly_advance_setReg s x b⟩

/-- Settles O30: it holds, each of the two being one register write; the byte sum is the sum modulo 256. -/
theorem immediateLoadAndAdd : Obligations.ImmediateLoadAndAdd := by
  intro s x nn
  refine ⟨?ldVxNn, ?addVxNn⟩
  case ldVxNn => exact setReg_outcome rfl
  case addVxNn =>
    obtain ⟨t, he, hx, hframe⟩ := setReg_outcome (i := .addVxNn x nn) (s := s) rfl
    exact ⟨t, he, hx ▸ BitVec.toNat_add .., hframe⟩

/-- Settles O31: it holds, each of the four being one register write; the bitwise operators act bit by bit. -/
theorem copyAndLogic : Obligations.CopyAndLogic := by
  intro s x y
  refine ⟨?ldVxVy, ?or, ?and, ?xor⟩
  case ldVxVy => exact setReg_outcome rfl
  case or =>
    obtain ⟨t, he, hx, hframe⟩ := setReg_outcome (i := .or x y) (s := s) rfl
    exact ⟨t, he, fun _ => hx ▸ BitVec.getLsbD_or, hframe⟩
  case and =>
    obtain ⟨t, he, hx, hframe⟩ := setReg_outcome (i := .and x y) (s := s) rfl
    exact ⟨t, he, fun _ => hx ▸ BitVec.getLsbD_and, hframe⟩
  case xor =>
    obtain ⟨t, he, hx, hframe⟩ := setReg_outcome (i := .xor x y) (s := s) rfl
    exact ⟨t, he, fun _ => hx ▸ BitVec.getLsbD_xor, hframe⟩

end Sys2Proof.Machine
end

section
/-! PROOF. The instructions that write the index register and nothing else but `pc` (43_index_memory.md R190,
R192). -/

namespace Sys2Proof.Machine

open Sys2Proof.Safety

/-- An index write with the advance leaves every part of the state but the index and `pc` alone. -/
theorem changesOnly_advance_setIdx (s : State) (w : Word) :
    changesOnly [.idx, .pc] s (s.setIdx w).advance := by
  intro p hp
  cases p with
  | idx | pc => simp at hp
  | _ => simp [Part.same]

/-- What an instruction that writes `w` to `I` and advances answers, where `w` has the value `n`: `I` has the
value `n`, `pc` is 2 more, every other part of the state is kept. -/
theorem setIdx_outcome {i : Instr} {s : State} {w : Word} {n : Nat}
    (he : exec i s = .next (s.setIdx w).advance) (hw : w.toNat = n) :
    ∃ t, exec i s = .next t ∧ t.idx.toNat = n ∧ t.pc = s.pc + 2#16 ∧ changesOnly [.idx, .pc] s t :=
  ⟨(s.setIdx w).advance, he, hw, rfl, changesOnly_advance_setIdx s w⟩

/-- Settles O38: it holds, each of the two being one index write, of the zero-extended immediate and of five
times the whole byte, a product that fits a word. -/
theorem indexLoads : Obligations.IndexLoads := by
  refine ⟨fun s nnn => ?ldINnn, fun s x => ?ldFVx⟩
  case ldINnn => exact setIdx_outcome rfl (toNat_addrOperand nnn)
  case ldFVx => exact setIdx_outcome rfl (toNat_glyphAddr (s.reg x))

end Sys2Proof.Machine
end

section
/-! PROOF. The screen clear (44_display.md R211). -/

namespace Sys2Proof.Machine

open Sys2Proof.Safety

/-- A write of the framebuffer and of `redraw`, with the advance, leaves every part of the state but the
screen, the outputs and `pc` alone. -/
theorem changesOnly_advance_setScreen (s : State) (fb : Framebuffer) (redraw : Bool) :
    changesOnly [.screen, .outputs, .pc] s { s with fb := fb, redraw := redraw }.advance := by
  intro p hp
  cases p with
  | screen | outputs | pc => simp at hp
  | regs | memory => exact fun _ => rfl
  | keys => exact fun _ _ => rfl
  | stack => exact ⟨rfl, fun _ _ => rfl⟩
  | run => exact ⟨rfl, rfl, rfl⟩
  | _ => rfl

/-- Every cell of a state whose framebuffer is 0 is 0. -/
theorem cell_eq_false_of_fb_eq_zero {s : State} (h : s.fb = 0#2048) (k : Nat) : s.cell k = false := by
  rw [State.cell, h, BitVec.getLsbD_zero]

/-- Settles O45: it holds, 00E0 being one write of the zero framebuffer and of `redraw`, whatever they were
before. -/
theorem clearScreen : Obligations.ClearScreen := fun s =>
  ⟨{ s with fb := 0#2048, redraw := true }.advance, rfl, fun k _ => cell_eq_false_of_fb_eq_zero rfl k, rfl, rfl, rfl,
    changesOnly_advance_setScreen s 0#2048 true⟩

end Sys2Proof.Machine
end

section
/-! PROOF. The timer writes, and that nothing but the sound timer itself depends on it (45_keys_timers.md R234,
R235). -/

namespace Sys2Proof.Machine

open Sys2Proof.Safety

/-! ### The timer writes -/

/-- A write of the delay timer with the advance leaves every part of the state but that timer and `pc` alone. -/
theorem changesOnly_advance_setDt (s : State) (b : Byte) : changesOnly [.dt, .pc] s (s.setDt b).advance := by
  intro p hp
  cases p with
  | dt | pc => simp at hp
  | _ => simp [Part.same]

/-- A write of the sound timer with the advance leaves every part of the state but that timer and `pc` alone. -/
theorem changesOnly_advance_setSt (s : State) (b : Byte) : changesOnly [.st, .pc] s (s.setSt b).advance := by
  intro p hp
  cases p with
  | st | pc => simp at hp
  | _ => simp [Part.same]

/-- A step that fetches FX15 writes the delay timer and then ticks. -/
theorem step_of_ldDtVx {s : State} {w : Word} {x : Reg} (hf : fetches s w) (hd : decodeWord w = .ok (.ldDtVx x)) :
    step s = .next (s.clearOutputs.setDt (s.reg x)).advance.tick :=
  step_of_exec hf hd rfl hf.1

/-- A step that fetches FX18 writes the sound timer and then ticks. -/
theorem step_of_ldStVx {s : State} {w : Word} {x : Reg} (hf : fetches s w) (hd : decodeWord w = .ok (.ldStVx x)) :
    step s = .next (s.clearOutputs.setSt (s.reg x)).advance.tick :=
  step_of_exec hf hd rfl hf.1

/-! ### Operations on a state with another sound timer -/

@[simp] theorem setSt_effAddr (b : Byte) (s : State) (k : Nat) : (s.setSt b).effAddr k = s.effAddr k := rfl

@[simp] theorem setSt_keyOperand (b : Byte) (s : State) (k : Byte) :
    (s.setSt b).keyOperand k = s.keyOperand k := rfl

@[simp] theorem setSt_firstKey (b : Byte) (s : State) : (s.setSt b).firstKey = s.firstKey := rfl

theorem clearOutputs_setSt (b : Byte) (s : State) : (s.setSt b).clearOutputs = s.clearOutputs.setSt b := rfl

/-- A push does the same, `ST` apart, whatever stands in `ST`. -/
theorem push_setSt (b : Byte) (s : State) (w : Word) :
    (s.setSt b).push w = (s.push w).map (·.setSt b) := by
  unfold State.push
  rw [apply_dite (Except.map _)]
  rfl

/-- A pop does the same, `ST` apart, whatever stands in `ST`. -/
theorem pop_setSt (b : Byte) (s : State) : (s.setSt b).pop = s.pop.map fun r => (r.1, r.2.setSt b) := by
  unfold State.pop
  rw [apply_ite (Except.map _)]
  rfl

/-- A store at `I` does the same, `ST` apart, whatever stands in `ST`. -/
theorem storeAtIdx_setSt (b : Byte) (s : State) (bs : List Byte) :
    (s.setSt b).storeAtIdx bs = (s.storeAtIdx bs).map (·.setSt b) := by
  simp only [State.storeAtIdx, setSt_mem, setSt_effAddr]
  cases memWriteRange s.mem (s.effAddr 0) bs <;> rfl

/-- A store at `I` and its conclusion do the same, `ST` apart, whatever stands in `ST`. -/
theorem conclude_storeAtIdx_setSt (b : Byte) (s : State) (bs : List Byte) :
    ∃ u c, conclude s (s.storeAtIdx bs) = .next u ∧
      conclude (s.setSt b) ((s.setSt b).storeAtIdx bs) = .next (u.setSt c) := by
  rw [storeAtIdx_setSt]
  cases s.storeAtIdx bs <;> exact ⟨_, b, rfl, rfl⟩

/-- Every instruction does the same, `ST` apart, whatever stands in `ST`: no check and no other result reads
it, and FX18 overwrites it. -/
theorem exec_and_exec_setSt (i : Instr) (s : State) (b : Byte) :
    ∃ u c, exec i s = .next u ∧ exec i (s.setSt b) = .next (u.setSt c) := by
  cases i with
  | ldStVx x => exact ⟨_, s.reg x, rfl, rfl⟩
  | ret =>
    simp only [exec, execRet, pop_setSt]
    cases s.pop <;> exact ⟨_, b, rfl, rfl⟩
  | call nnn =>
    simp only [exec, execCall, setSt_pc, push_setSt]
    cases s.push s.pc <;> exact ⟨_, b, rfl, rfl⟩
  | skp x =>
    simp only [exec, execSkp, setSt_reg, setSt_keyOperand]
    cases s.keyOperand (s.reg x) <;> exact ⟨_, b, rfl, rfl⟩
  | sknp x =>
    simp only [exec, execSknp, setSt_reg, setSt_keyOperand]
    cases s.keyOperand (s.reg x) <;> exact ⟨_, b, rfl, rfl⟩
  | ldVxK x =>
    simp only [exec, execLdVxK, setSt_firstKey]
    cases s.firstKey <;> exact ⟨_, b, rfl, rfl⟩
  | ldBVx x => exact conclude_storeAtIdx_setSt b s (bcdDigits (s.reg x))
  | ldMemVx x => exact conclude_storeAtIdx_setSt b s (s.regsUpTo x)
  | ldVxMem x =>
    simp only [exec, execLdVxMem, setSt_mem, setSt_effAddr]
    cases memReadRange s.mem (s.effAddr 0) (x.toNat + 1) <;> exact ⟨_, b, rfl, rfl⟩
  | drw x y n =>
    simp only [exec, execDrw, setSt_mem, setSt_effAddr, setSt_reg]
    cases memReadRange s.mem (s.effAddr 0) n.toNat with
    | error trap => exact ⟨_, b, rfl, rfl⟩
    | ok rows =>
      dsimp only
      cases checkPixels (spritePixels (s.reg x).toNat (s.reg y).toNat rows) <;> exact ⟨_, b, rfl, rfl⟩
  | _ => exact ⟨_, b, rfl, rfl⟩

/-- What an instruction answers with another `ST`, where it answers `u` with this one: `u` up to its `ST`. -/
theorem exec_setSt_of_next {i : Instr} {s u : State} (he : exec i s = .next u) (b : Byte) :
    ∃ c, exec i (s.setSt b) = .next (u.setSt c) := by
  obtain ⟨u', c, he', hec⟩ := exec_and_exec_setSt i s b
  cases he.symm.trans he'
  exact ⟨c, hec⟩

/-- A step fetches the same word whatever stands in `ST`. -/
theorem fetches_setSt {s : State} {w : Word} (hf : fetches s w) (b : Byte) : fetches (s.setSt b) w := hf

/-- Every step does the same, `ST` apart, whatever stands in `ST`. -/
theorem step_setSt {s t : State} (h : step s = .next t) (b : Byte) : ∃ c, step (s.setSt b) = .next (t.setSt c) := by
  cases step_cases h with
  | stopped hp ht =>
    subst ht
    exact ⟨b, by simp only [step, setSt_phase, hp]; rfl⟩
  | invalid hp hv ht =>
    subst ht
    exact ⟨b, step_of_invalid hp hv⟩
  | unknown w e hf hd ht =>
    subst ht
    exact ⟨countDown b, step_of_unknown (fetches_setSt hf b) hd⟩
  | completed w i u hf hd he hc ht =>
    subst ht
    obtain ⟨c, hec⟩ := exec_setSt_of_next he b
    exact ⟨countDown c, step_of_exec (fetches_setSt hf b) hd hec (hc.phase.trans hf.1)⟩
  | faulted w i trap hf hd hm he ht =>
    subst ht
    obtain ⟨c, hec⟩ := exec_setSt_of_next he b
    refine ⟨c, ?_⟩
    rw [step_of_decode (fetches_setSt hf b) hd, clearOutputs_setSt, hec]
    rfl

/-- Settles O53: it holds, FX15 and FX18 being one timer write each before the tick, and every instruction,
fetch and fault commuting with a write of `ST`. -/
theorem writeTimers : Obligations.WriteTimers := by
  refine ⟨fun s x => ?execDt, fun s x => ?execSt, fun s w x hf hd => ?stepDt, fun s w x hf hd => ?stepSt,
    fun s t b h => step_setSt h b⟩
  case execDt => exact ⟨(s.setDt (s.reg x)).advance, rfl, rfl, rfl, changesOnly_advance_setDt s _⟩
  case execSt => exact ⟨(s.setSt (s.reg x)).advance, rfl, rfl, rfl, changesOnly_advance_setSt s _⟩
  case stepDt => exact ⟨_, step_of_ldDtVx hf hd, toNat_countDown _, toNat_countDown _⟩
  case stepSt => exact ⟨_, step_of_ldStVx hf hd, toNat_countDown _, toNat_countDown _⟩

end Sys2Proof.Machine
end

section
/-! PROOF. The initialization, and that it is the only way out of a fault (70_reset_and_hazards.md R291). -/

namespace Sys2Proof.Machine

/-! ### What `initialize` leaves -/

section
variable (s : State) (font : Font)

theorem initCore_reg (r : Reg) : (s.initCore font).reg r = 0#8 := Vector.getElem_replicate _

theorem initCore_slot (k : Nat) : (s.initCore font).slot k = 0#16 :=
  List.getElem?_getD_replicate_default_eq _ 16 k

theorem initCore_key (k : Nat) : (s.initCore font).key k = false :=
  List.getElem?_getD_replicate_default_eq _ 16 k

theorem initCore_cell (k : Nat) : (s.initCore font).cell k = false := cell_eq_false_of_fb_eq_zero rfl k

/-- Memory after `initialize`: the font in its region and 0 above. -/
theorem initCore_mem_read (a : Nat) :
    (s.initCore font).mem.read a = if h : a < Config.fontSize then font[a] else 0#8 := by
  have hload : (s.initCore font).mem = Memory.load [] 0 font.toList := rfl
  rw [hload, Memory.read_load]
  by_cases h : a < Config.fontSize
  · simp [h]
  · simp [h, Memory.read, Memory.unlisted]

end

/-! ### Every other move keeps phase FAULT -/

/-- A step in phase FAULT clears the outputs and does nothing else (40_step_cycle.md R129). -/
theorem step_fault {s : State} (h : s.phase = .fault) : step s = .next s.clearOutputs := by
  simp only [step, h]

/-- A load in phase FAULT is refused (70_reset_and_hazards.md R292). -/
theorem loadRom_fault {s : State} (h : s.phase = .fault) (bytes : List Byte) :
    s.loadRom bytes = .refused .loadOutsideInit := by
  simp only [State.loadRom, h]

/-- A key write that answers keeps the phase. -/
theorem setKey_keeps_phase {s t : State} {index : Nat} {pressed : Bool} (h : s.setKey index pressed = .next t) :
    t.phase = s.phase := by
  unfold State.setKey at h
  split at h <;> cases h
  rfl

/-- A move that leads out of phase FAULT is an `initialize`. -/
theorem exists_initCore_of_leaves_fault {op : HostOp} {s t : State} (hs : s.phase = .fault)
    (h : op.apply s = .next t) (ht : t.phase ≠ .fault) : ∃ font, op = .initCore font := by
  cases op with
  | initCore font => exact ⟨font, rfl⟩
  | loadRom bytes => cases (loadRom_fault hs bytes).symm.trans h
  | setKey index pressed => exact absurd ((setKey_keeps_phase h).trans hs) ht
  | step =>
    cases (step_fault hs).symm.trans h
    exact absurd hs ht

/-- Settles O54: it holds, `initialize` reading nothing of the state it replaces but the count of draws; in
phase FAULT a load is refused, and a key write and a step keep the phase. -/
theorem initializeResetsEverything : Obligations.InitializeResetsEverything := by
  refine ⟨fun s font => ⟨s.initCore font, rfl, initCore_reg s font, rfl, rfl, rfl, fun k _ => initCore_slot s font k,
    rfl, rfl, fun k _ => initCore_cell s font k, fun k _ => initCore_key s font k, fun k hk => ?font,
    fun a ha _ => ?zeros, rfl, rfl, rfl⟩, fun _ _ _ => exists_initCore_of_leaves_fault⟩
  case font => rw [initCore_mem_read, dif_pos hk]
  case zeros => rw [initCore_mem_read, dif_neg (Nat.not_lt.mpr ha)]

end Sys2Proof.Machine
end

section
/-! PROOF. Decoder and encoder undo each other, and the decoder rejects exactly the words outside the opcode
map (30_encoding.md sections 3 to 7). -/

namespace Sys2Proof

/-! ### The fields of a literal word and of a masked word -/

@[simp] theorem fieldClass_ofNat (n : Nat) : fieldClass (BitVec.ofNat 16 n) = BitVec.ofNat 4 (n / 2 ^ 12) := by
  apply BitVec.eq_of_toNat_eq
  simp only [fieldClass, BitVec.extractLsb'_toNat, BitVec.toNat_ofNat, Nat.shiftRight_eq_div_pow]
  omega

@[simp] theorem fieldX_ofNat (n : Nat) : fieldX (BitVec.ofNat 16 n) = BitVec.ofNat 4 (n / 2 ^ 8) := by
  apply BitVec.eq_of_toNat_eq
  simp only [fieldX, BitVec.extractLsb'_toNat, BitVec.toNat_ofNat, Nat.shiftRight_eq_div_pow]
  omega

@[simp] theorem fieldY_ofNat (n : Nat) : fieldY (BitVec.ofNat 16 n) = BitVec.ofNat 4 (n / 2 ^ 4) := by
  apply BitVec.eq_of_toNat_eq
  simp only [fieldY, BitVec.extractLsb'_toNat, BitVec.toNat_ofNat, Nat.shiftRight_eq_div_pow]
  omega

@[simp] theorem fieldN_ofNat (n : Nat) : fieldN (BitVec.ofNat 16 n) = BitVec.ofNat 4 n := by
  apply BitVec.eq_of_toNat_eq
  simp [fieldN]

@[simp] theorem fieldNN_ofNat (n : Nat) : fieldNN (BitVec.ofNat 16 n) = BitVec.ofNat 8 n := by
  apply BitVec.eq_of_toNat_eq
  simp [fieldNN]

@[simp] theorem fieldNNN_ofNat (n : Nat) : fieldNNN (BitVec.ofNat 16 n) = BitVec.ofNat 12 n := by
  apply BitVec.eq_of_toNat_eq
  simp [fieldNNN]

theorem fieldClass_and (a b : Word) : fieldClass (a &&& b) = fieldClass a &&& fieldClass b := BitVec.extractLsb'_and

theorem fieldN_and (a b : Word) : fieldN (a &&& b) = fieldN a &&& fieldN b := BitVec.extractLsb'_and

theorem fieldNN_and (a b : Word) : fieldNN (a &&& b) = fieldNN a &&& fieldNN b := BitVec.extractLsb'_and

/-! ### Decoding an encoding -/

/-- Operands lie below the class digit, so the class of an encoding is that of its row. -/
theorem fieldClass_encode (i : Instr) : fieldClass (encode i) = fieldClass i.matchBits := by
  cases i <;> simp [encode, Instr.operandBits]

/-- The class and the sub-opcode of an encoding select its row, and each operand field is read back. -/
theorem decodeWord_encode (i : Instr) : decodeWord (encode i) = .ok i := by
  unfold decodeWord
  rw [fieldClass_encode]
  cases i with
  | cls | ret => simp [Instr.matchBits, encode, Instr.operandBits, decodeClass0]
  | ldVxVy | or | and | xor | addVxVy | sub | shr | subn | shl =>
    simp [Instr.matchBits, encode, Instr.operandBits, decodeClass8]
  | skp | sknp => simp [Instr.matchBits, encode, Instr.operandBits, decodeClassE]
  | ldVxDt | ldVxK | ldDtVx | ldStVx | addIVx | ldFVx | ldBVx | ldMemVx | ldVxMem =>
    simp [Instr.matchBits, encode, Instr.operandBits, decodeClassF]
  | _ => simp [Instr.matchBits, encode, Instr.operandBits]

/-- Settles O2: it holds; see `decodeWord_encode`. -/
theorem decodeAfterEncode : Obligations.DecodeAfterEncode := decodeWord_encode

/-- Settles O1: it holds, by running the decoder on the eight words. -/
theorem specWordsDecode : Obligations.SpecWordsDecode := by
  unfold Obligations.SpecWordsDecode
  decide

/-! ### A word is its class digit and its operand fields -/

/-- The class digit in its place, `class << 12`. -/
def placeClass (c : BitVec 4) : Word := c.setWidth 16 <<< 12

theorem placeClass_or_placeNNN (w : Word) : placeClass (fieldClass w) ||| (fieldNNN w).setWidth 16 = w := by
  apply BitVec.eq_of_getLsbD_eq
  intro k hk
  simp only [placeClass, fieldClass, fieldNNN, BitVec.getLsbD_or, BitVec.getLsbD_shiftLeft, BitVec.getLsbD_setWidth,
    BitVec.getLsbD_extractLsb']
  interval_cases k <;> simp

theorem placeX_or_placeNN (w : Word) :
    placeX (fieldX w) ||| (fieldNN w).setWidth 16 = (fieldNNN w).setWidth 16 := by
  apply BitVec.eq_of_getLsbD_eq
  intro k hk
  simp only [placeX, fieldX, fieldNN, fieldNNN, BitVec.getLsbD_or, BitVec.getLsbD_shiftLeft, BitVec.getLsbD_setWidth,
    BitVec.getLsbD_extractLsb']
  interval_cases k <;> simp

theorem placeY_or_placeN (w : Word) :
    placeY (fieldY w) ||| (fieldN w).setWidth 16 = (fieldNN w).setWidth 16 := by
  apply BitVec.eq_of_getLsbD_eq
  intro k hk
  simp only [placeY, fieldY, fieldN, fieldNN, BitVec.getLsbD_or, BitVec.getLsbD_shiftLeft, BitVec.getLsbD_setWidth,
    BitVec.getLsbD_extractLsb']
  interval_cases k <;> simp

/-! ### Encoding a decoding, one lemma per format (30_encoding.md R92) -/

section
variable {i : Instr} {w : Word}

theorem encode_eq_of_nnn (hm : i.matchBits = placeClass (fieldClass w))
    (ho : i.operandBits = (fieldNNN w).setWidth 16) : encode i = w := by
  rw [encode, hm, ho, placeClass_or_placeNNN]

theorem encode_eq_of_xnn (hm : i.matchBits = placeClass (fieldClass w))
    (ho : i.operandBits = placeX (fieldX w) ||| (fieldNN w).setWidth 16) : encode i = w :=
  encode_eq_of_nnn hm (ho.trans (placeX_or_placeNN w))

theorem encode_eq_of_xyn (hm : i.matchBits = placeClass (fieldClass w))
    (ho : i.operandBits = placeX (fieldX w) ||| placeY (fieldY w) ||| (fieldN w).setWidth 16) : encode i = w :=
  encode_eq_of_xnn hm (by rw [ho, BitVec.or_assoc, placeY_or_placeN])

theorem encode_eq_of_xy (hm : i.matchBits = placeClass (fieldClass w) ||| (fieldN w).setWidth 16)
    (ho : i.operandBits = placeX (fieldX w) ||| placeY (fieldY w)) : encode i = w :=
  calc encode i
    _ = placeClass (fieldClass w) ||| (placeX (fieldX w) ||| (placeY (fieldY w) ||| (fieldN w).setWidth 16)) := by
      rw [encode, hm, ho, BitVec.or_assoc, BitVec.or_comm ((fieldN w).setWidth 16), BitVec.or_assoc]
    _ = w := by rw [placeY_or_placeN, placeX_or_placeNN, placeClass_or_placeNNN]

theorem encode_eq_of_x (hm : i.matchBits = placeClass (fieldClass w) ||| (fieldNN w).setWidth 16)
    (ho : i.operandBits = placeX (fieldX w)) : encode i = w :=
  calc encode i
    _ = placeClass (fieldClass w) ||| (placeX (fieldX w) ||| (fieldNN w).setWidth 16) := by
      rw [encode, hm, ho, BitVec.or_assoc, BitVec.or_comm ((fieldNN w).setWidth 16)]
    _ = w := by rw [placeX_or_placeNN, placeClass_or_placeNNN]

theorem encode_of_decodeClass0 (h : decodeClass0 w = .ok i) : encode i = w := by
  unfold decodeClass0 at h
  split_ifs at h with hcls hret <;> cases h
  · rw [hcls]; decide
  · rw [hret]; decide

theorem encode_of_decodeClass8 (hc : fieldClass w = 0x8#4) (h : decodeClass8 w = .ok i) : encode i = w := by
  unfold decodeClass8 at h
  split_ifs at h <;> cases h
  all_goals exact encode_eq_of_xy (by rw [hc, ‹fieldN w = _›]; rfl) rfl

theorem encode_of_decodeClassE (hc : fieldClass w = 0xE#4) (h : decodeClassE w = .ok i) : encode i = w := by
  unfold decodeClassE at h
  split_ifs at h <;> cases h
  all_goals exact encode_eq_of_x (by rw [hc, ‹fieldNN w = _›]; rfl) rfl

theorem encode_of_decodeClassF (hc : fieldClass w = 0xF#4) (h : decodeClassF w = .ok i) : encode i = w := by
  unfold decodeClassF at h
  split_ifs at h <;> cases h
  all_goals exact encode_eq_of_x (by rw [hc, ‹fieldNN w = _›]; rfl) rfl

end

/-- The sixteen values of a class digit. -/
theorem class_cases : ∀ c : BitVec 4, c = 0x0#4 ∨ c = 0x1#4 ∨ c = 0x2#4 ∨ c = 0x3#4 ∨ c = 0x4#4 ∨ c = 0x5#4 ∨
    c = 0x6#4 ∨ c = 0x7#4 ∨ c = 0x8#4 ∨ c = 0x9#4 ∨ c = 0xA#4 ∨ c = 0xB#4 ∨ c = 0xC#4 ∨ c = 0xD#4 ∨
    c = 0xE#4 ∨ c = 0xF#4 := by decide

/-- A word that decodes is the encoding of its instruction: its class digit and sub-opcode are the row's match
value, and the operands are its other fields. -/
theorem encode_of_decodeWord {w : Word} {i : Instr} (h : decodeWord w = .ok i) : encode i = w := by
  rcases class_cases (fieldClass w) with hc | hc | hc | hc | hc | hc | hc | hc | hc | hc | hc | hc | hc | hc | hc | hc <;>
    simp only [decodeWord, hc, reduceIte, BitVec.reduceEq, Except.ok.injEq] at h
  · exact encode_of_decodeClass0 h
  · exact h ▸ encode_eq_of_nnn (by rw [hc]; rfl) rfl
  · exact h ▸ encode_eq_of_nnn (by rw [hc]; rfl) rfl
  · exact h ▸ encode_eq_of_xnn (by rw [hc]; rfl) rfl
  · exact h ▸ encode_eq_of_xnn (by rw [hc]; rfl) rfl
  · split_ifs at h with hn
    exact Except.ok.inj h ▸ encode_eq_of_xy (by rw [hc, hn]; rfl) rfl
  · exact h ▸ encode_eq_of_xnn (by rw [hc]; rfl) rfl
  · exact h ▸ encode_eq_of_xnn (by rw [hc]; rfl) rfl
  · exact encode_of_decodeClass8 hc h
  · split_ifs at h with hn
    exact Except.ok.inj h ▸ encode_eq_of_xy (by rw [hc, hn]; rfl) rfl
  · exact h ▸ encode_eq_of_nnn (by rw [hc]; rfl) rfl
  · exact h ▸ encode_eq_of_nnn (by rw [hc]; rfl) rfl
  · exact h ▸ encode_eq_of_xnn (by rw [hc]; rfl) rfl
  · exact h ▸ encode_eq_of_xyn (by rw [hc]; rfl) rfl
  · exact encode_of_decodeClassE hc h
  · exact encode_of_decodeClassF hc h

/-- Settles O3: it holds; see `encode_of_decodeWord`. -/
theorem encodeAfterDecode : Obligations.EncodeAfterDecode := fun _ _ => encode_of_decodeWord

/-! ### The words outside the opcode map -/

/-- The decoder rejects a word only by its own name. -/
theorem eq_unknownOpcode_of_error {w : Word} {e : DecodeError} (h : decodeWord w = .error e) :
    e = .unknownOpcode w := by
  rcases class_cases (fieldClass w) with hc | hc | hc | hc | hc | hc | hc | hc | hc | hc | hc | hc | hc | hc | hc | hc <;>
    simp only [decodeWord, decodeClass0, decodeClass8, decodeClassE, decodeClassF, hc, reduceIte, BitVec.reduceEq,
      reduceCtorEq] at h
  all_goals
    split_ifs at h
    exact (Except.error.inj h).symm

/-- The encoding of every instruction matches the instruction's row of the opcode map. -/
theorem encodesRow : ∀ i : Instr, Laws.EncodesRow.Statement i
  | .cls => Laws.EncodesRow.cls
  | .ret => Laws.EncodesRow.ret
  | .jp nnn => Laws.EncodesRow.jp nnn
  | .call nnn => Laws.EncodesRow.call nnn
  | .seVxNn x nn => Laws.EncodesRow.seVxNn x nn
  | .sneVxNn x nn => Laws.EncodesRow.sneVxNn x nn
  | .seVxVy x y => Laws.EncodesRow.seVxVy x y
  | .ldVxNn x nn => Laws.EncodesRow.ldVxNn x nn
  | .addVxNn x nn => Laws.EncodesRow.addVxNn x nn
  | .ldVxVy x y => Laws.EncodesRow.ldVxVy x y
  | .or x y => Laws.EncodesRow.or x y
  | .and x y => Laws.EncodesRow.and x y
  | .xor x y => Laws.EncodesRow.xor x y
  | .addVxVy x y => Laws.EncodesRow.addVxVy x y
  | .sub x y => Laws.EncodesRow.sub x y
  | .shr x y => Laws.EncodesRow.shr x y
  | .subn x y => Laws.EncodesRow.subn x y
  | .shl x y => Laws.EncodesRow.shl x y
  | .sneVxVy x y => Laws.EncodesRow.sneVxVy x y
  | .ldINnn nnn => Laws.EncodesRow.ldINnn nnn
  | .jpV0 nnn => Laws.EncodesRow.jpV0 nnn
  | .rnd x nn => Laws.EncodesRow.rnd x nn
  | .drw x y n => Laws.EncodesRow.drw x y n
  | .skp x => Laws.EncodesRow.skp x
  | .sknp x => Laws.EncodesRow.sknp x
  | .ldVxDt x => Laws.EncodesRow.ldVxDt x
  | .ldVxK x => Laws.EncodesRow.ldVxK x
  | .ldDtVx x => Laws.EncodesRow.ldDtVx x
  | .ldStVx x => Laws.EncodesRow.ldStVx x
  | .addIVx x => Laws.EncodesRow.addIVx x
  | .ldFVx x => Laws.EncodesRow.ldFVx x
  | .ldBVx x => Laws.EncodesRow.ldBVx x
  | .ldMemVx x => Laws.EncodesRow.ldMemVx x
  | .ldVxMem x => Laws.EncodesRow.ldVxMem x

theorem and_nibble_ones (c : BitVec 4) : c &&& 0xF#4 = c := BitVec.and_allOnes

theorem and_byte_ones (b : Byte) : b &&& 0xFF#8 = b := BitVec.and_allOnes

theorem and_word_ones (w : Word) : w &&& 0xFFFF#16 = w := BitVec.and_allOnes

/-- A word that matches a row decodes: the mask keeps the class digit and the sub-opcode, and these are the row's. -/
theorem decodes_of_matches_row {row : OpcodeRow} (hrow : row ∈ opcodeMap) {w : Word}
    (hm : w &&& row.mask = row.matchBits) : ∃ i, decodeWord w = .ok i := by
  have hc : fieldClass w &&& fieldClass row.mask = fieldClass row.matchBits := by rw [← fieldClass_and, hm]
  have hn : fieldN w &&& fieldN row.mask = fieldN row.matchBits := by rw [← fieldN_and, hm]
  have hnn : fieldNN w &&& fieldNN row.mask = fieldNN row.matchBits := by rw [← fieldNN_and, hm]
  fin_cases hrow
  · exact ⟨.cls, by rw [(and_word_ones w).symm.trans hm]; decide⟩
  · exact ⟨.ret, by rw [(and_word_ones w).symm.trans hm]; decide⟩
  all_goals
    simp only [fieldClass_ofNat, fieldN_ofNat, fieldNN_ofNat, Nat.reducePow, Nat.reduceDiv, BitVec.reduceOfNat,
      and_nibble_ones, and_byte_ones] at hc hn hnn
    simp only [decodeWord, decodeClass8, decodeClassE, decodeClassF, hc, hn, hnn, reduceIte, BitVec.reduceEq]
    exact ⟨_, rfl⟩

/-- Settles O4: it holds, a word that decodes being the encoding of its instruction, which matches the
instruction's row, and a word that matches a row decoding. -/
theorem unknownExactlyOutsideTheMap : Obligations.UnknownExactlyOutsideTheMap := by
  intro w
  constructor
  · intro h row hrow
    by_contra hm
    obtain ⟨i, hi⟩ := decodes_of_matches_row hrow (by simpa [OpcodeRow.matchesWord] using hm)
    simp [h] at hi
  · intro h
    cases hd : decodeWord w with
    | error e => rw [eq_unknownOpcode_of_error hd]
    | ok i =>
      obtain ⟨hrow, hm⟩ := encodesRow i
      rw [encode_of_decodeWord hd] at hm
      simpa [OpcodeRow.matchesWord, hm] using h _ hrow

end Sys2Proof
end

section
/-! PROOF. Which parts of the state each instruction writes, said once, and what follows for every step. -/

namespace Sys2Proof.Machine

open Sys2Proof.Safety

/-! ### Frames as one equation -/

/-- `s` with the parts in `ps` taken from `u`. -/
def State.overwrite (ps : List Part) (s u : State) : State where
  v := if .regs ∈ ps then u.v else s.v
  idx := if .idx ∈ ps then u.idx else s.idx
  pc := if .pc ∈ ps then u.pc else s.pc
  sp := if .stack ∈ ps then u.sp else s.sp
  stk := if .stack ∈ ps then u.stk else s.stk
  dt := if .dt ∈ ps then u.dt else s.dt
  st := if .st ∈ ps then u.st else s.st
  fb := if .screen ∈ ps then u.fb else s.fb
  keys := if .keys ∈ ps then u.keys else s.keys
  mem := if .memory ∈ ps then u.mem else s.mem
  phase := if .run ∈ ps then u.phase else s.phase
  fcause := if .run ∈ ps then u.fcause else s.fcause
  faddr := if .run ∈ ps then u.faddr else s.faddr
  redraw := if .outputs ∈ ps then u.redraw else s.redraw
  diag := if .outputs ∈ ps then u.diag else s.diag
  draws := if .draws ∈ ps then u.draws else s.draws

/-- `t` differs from `s` in the parts in `ps` at most. For a `t` written as an update of `s` this is `rfl`. -/
def writesOnly (ps : List Part) (s t : State) : Prop := t = s.overwrite ps t

section
variable {ps : List Part} {s t : State}

/-- The frame the statements speak of follows from the equation. -/
theorem writesOnly.changesOnly (h : writesOnly ps s t) : changesOnly ps s t := by
  intro p hp
  rw [h]
  cases p <;> simp [Part.same, State.overwrite, hp, State.reg, State.slot, State.cell, State.key]

theorem writesOnly.mem (h : writesOnly ps s t) (hp : .memory ∉ ps) : t.mem = s.mem := by
  rw [h]
  simp [State.overwrite, hp]

end

theorem writesOnly_raiseFault (trap : Trap) (s : State) : writesOnly [.run] s (raiseFault trap s) := rfl

/-! ### The parts an instruction writes -/

/-- The parts of the state an instruction writes when it completes (10_state.md sections 2 to 7). -/
def Instr.writes : Instr → List Part
  | .cls => [.screen, .outputs, .pc]
  | .drw _ _ _ => [.regs, .screen, .outputs, .pc]
  | .ret | .call _ => [.stack, .pc]
  | .jp _ | .jpV0 _ | .seVxNn _ _ | .sneVxNn _ _ | .seVxVy _ _ | .sneVxVy _ _ | .skp _ | .sknp _ => [.pc]
  | .ldVxNn _ _ | .addVxNn _ _ | .ldVxVy _ _ | .or _ _ | .and _ _ | .xor _ _ => [.regs, .pc]
  | .addVxVy _ _ | .sub _ _ | .shr _ _ | .subn _ _ | .shl _ _ => [.regs, .pc]
  | .ldVxDt _ | .ldVxK _ | .ldVxMem _ => [.regs, .pc]
  | .rnd _ _ => [.regs, .draws, .pc]
  | .ldINnn _ | .addIVx _ | .ldFVx _ => [.idx, .pc]
  | .ldBVx _ | .ldMemVx _ => [.memory, .pc]
  | .ldDtVx _ => [.dt, .pc]
  | .ldStVx _ => [.st, .pc]

/-- A store at `I` writes memory and `pc`, or faults. -/
theorem storeAtIdx_frame {s t : State} {bs : List Byte} (h0 : bs ≠ [])
    (he : conclude s (s.storeAtIdx bs) = .next t) :
    writesOnly [.memory, .pc] s t ∨ ∃ trap, t = raiseFault trap s := by
  rcases storeAtIdx_cases s bs h0 with ⟨-, -, u, hu, -, -, hus⟩ | ⟨-, hu⟩ | ⟨-, hu⟩ <;> cases he.symm.trans hu
  · left
    rw [hus]
    rfl
  · exact Or.inr ⟨_, rfl⟩
  · exact Or.inr ⟨_, rfl⟩

/-- FRAME. An instruction writes its own parts, or raises a fault in the state it started from. -/
theorem exec_frame {i : Instr} {s t : State} (he : exec i s = .next t) :
    writesOnly (Instr.writes i) s t ∨ ∃ trap, t = raiseFault trap s := by
  cases i with
  | ret =>
    rcases execRet_cases s with ⟨-, u, hu, -, -, hus⟩ | ⟨-, hu⟩ <;> cases he.symm.trans hu
    · left
      rw [hus]
      rfl
    · exact Or.inr ⟨_, rfl⟩
  | call nnn =>
    rcases execCall_cases nnn s with ⟨-, u, hu, -, -, -, -, hus⟩ | ⟨-, hu⟩ <;> cases he.symm.trans hu
    · left
      rw [hus]
      rfl
    · exact Or.inr ⟨_, rfl⟩
  | drw x y n =>
    rcases execDrw_cases x y n s with ⟨-, -, hu⟩ | ⟨-, -, hu⟩ | ⟨-, p, -, -, -, hu⟩ <;> cases he.symm.trans hu
    · exact Or.inl rfl
    · exact Or.inr ⟨_, rfl⟩
    · exact Or.inr ⟨_, rfl⟩
  | skp x =>
    rcases execSkp_cases x s with ⟨-, hu⟩ | ⟨-, hu⟩ <;> cases he.symm.trans hu
    · exact Or.inl rfl
    · exact Or.inr ⟨_, rfl⟩
  | sknp x =>
    rcases execSknp_cases x s with ⟨-, hu⟩ | ⟨-, hu⟩ <;> cases he.symm.trans hu
    · exact Or.inl rfl
    · exact Or.inr ⟨_, rfl⟩
  | ldBVx x => exact storeAtIdx_frame (by simp [bcdDigits]) he
  | ldMemVx x => exact storeAtIdx_frame (s.regsUpTo_ne_nil x) he
  | ldVxMem x =>
    rcases execLdVxMem_cases x s with ⟨-, u, hu, -, hus⟩ | ⟨-, hu⟩ <;> cases he.symm.trans hu
    · left
      rw [hus]
      rfl
    · exact Or.inr ⟨_, rfl⟩
  | ldVxK x =>
    simp only [exec, execLdVxK] at he
    split at he <;> cases he <;> exact Or.inl rfl
  | _ =>
    cases he
    exact Or.inl rfl

end Sys2Proof.Machine
end

section
/-! PROOF. Who writes and who faults: each part of the state has its writers, and each fault its instructions
(10_state.md sections 2 to 6, 60_exceptions.md section 2). -/

namespace Sys2Proof.Machine

open Sys2Proof.Safety

/-! ### The writers of each part -/

section
variable {i : Instr} {s t : State} {p : Part}

/-- A part that an instruction does not write is the same after it, faulted or not. -/
theorem same_of_not_mem_writes (he : exec i s = .next t) (hp : p ∉ Instr.writes i) (hr : p ≠ .run) : p.same s t := by
  rcases exec_frame he with h | ⟨trap, rfl⟩
  · exact h.changesOnly p hp
  · exact (writesOnly_raiseFault trap s).changesOnly p (by simpa using hr)

theorem same_or_of_mem_writes {Q : Prop} (he : exec i s = .next t) (hr : p ≠ .run) (hw : p ∈ Instr.writes i → Q) :
    p.same s t ∨ Q := by
  by_cases hp : p ∈ Instr.writes i
  · exact Or.inr (hw hp)
  · exact Or.inl (same_of_not_mem_writes he hp hr)

theorem writers_screen (h : .screen ∈ Instr.writes i) : i = .cls ∨ ∃ x y n, i = .drw x y n := by
  cases i <;> simp [Instr.writes] at h ⊢

theorem writers_memory (h : .memory ∈ Instr.writes i) : ∃ x, i = .ldBVx x ∨ i = .ldMemVx x := by
  cases i <;> simp [Instr.writes] at h ⊢

theorem writers_stack (h : .stack ∈ Instr.writes i) : i = .ret ∨ ∃ nnn, i = .call nnn := by
  cases i <;> simp [Instr.writes] at h ⊢

theorem writers_dt (h : .dt ∈ Instr.writes i) : ∃ x, i = .ldDtVx x := by
  cases i <;> simp [Instr.writes] at h ⊢

theorem writers_st (h : .st ∈ Instr.writes i) : ∃ x, i = .ldStVx x := by
  cases i <;> simp [Instr.writes] at h ⊢

theorem writers_idx (h : .idx ∈ Instr.writes i) : (∃ nnn, i = .ldINnn nnn) ∨ ∃ x, i = .addIVx x ∨ i = .ldFVx x := by
  cases i <;> simp [Instr.writes] at h ⊢

theorem writers_draws (h : .draws ∈ Instr.writes i) : ∃ x nn, i = .rnd x nn := by
  cases i <;> simp [Instr.writes] at h ⊢

end

/-- Settles O16: it holds, by the frame of every instruction. -/
theorem eachStoreHasItsWriters : Obligations.EachStoreHasItsWriters := by
  intro i s t he
  exact ⟨same_or_of_mem_writes he (by decide) writers_screen, same_or_of_mem_writes he (by decide) writers_memory,
    same_or_of_mem_writes he (by decide) writers_stack, same_or_of_mem_writes he (by decide) writers_dt,
    same_or_of_mem_writes he (by decide) writers_st, same_or_of_mem_writes he (by decide) writers_idx⟩

/-! ### The writers of the flag register -/

/-- A register write with the advance changes another register only if that is the one written. -/
theorem eq_of_reg_advance_setReg_ne {s : State} {x r : Reg} {b : Byte}
    (h : (s.setReg x b).advance.reg r ≠ s.reg r) : x = r := by
  by_contra hx
  simp [hx] at h

/-- FX65 changes `VF` only with `X = 15`. -/
theorem eq_vf_of_execLdVxMem {s t : State} {x : Reg} (he : execLdVxMem x s = .next t) (h : t.reg 15#4 ≠ s.reg 15#4) :
    x = 15#4 := by
  rcases execLdVxMem_cases x s with ⟨-, u, hu, hreg, -⟩ | ⟨-, hu⟩ <;> cases he.symm.trans hu
  · by_contra hx
    have hlt : ¬(15#4).toNat ≤ x.toNat := by bv_omega
    exact h (by rw [hreg, if_neg hlt])
  · exact absurd rfl h

/-- FX0A changes a register only if that is `X`. -/
theorem eq_of_execLdVxK {s t : State} {x r : Reg} (he : execLdVxK x s = .next t) (h : t.reg r ≠ s.reg r) : x = r := by
  unfold execLdVxK at he
  split at he <;> cases he
  · exact eq_of_reg_advance_setReg_ne h
  · exact absurd rfl h

/-- Settles O17: it holds; an instruction that writes no register keeps `VF`, and one that writes its
destination alone changes `VF` only as that destination. -/
theorem flagRegisterHasItsWriters : Obligations.FlagRegisterHasItsWriters := by
  intro i s t he h
  by_cases hw : .regs ∈ Instr.writes i
  · cases i with
    | addVxVy | sub | shr | subn | shl => simp
    | drw => simp
    | ldVxNn x nn | addVxNn x nn =>
      cases he
      simp [eq_of_reg_advance_setReg_ne h]
    | rnd x nn =>
      cases he
      simp [eq_of_reg_advance_setReg_ne (s := s.draw.2) h]
    | ldVxVy x y | or x y | and x y | xor x y =>
      cases he
      simp [eq_of_reg_advance_setReg_ne h]
    | ldVxDt x =>
      cases he
      simp [eq_of_reg_advance_setReg_ne h]
    | ldVxK x => simp [eq_of_execLdVxK he h]
    | ldVxMem x => simp [eq_vf_of_execLdVxMem he h]
    | _ => simp [Instr.writes] at hw
  · exact absurd (same_of_not_mem_writes he hw (by decide) 15#4) h

/-! ### The instructions that fault -/

/-- An instruction that ends in phase FAULT, and did not begin there, raised a fault of its own. -/
theorem exists_raise_of_faults {i : Instr} {s t : State} (he : exec i s = .next t) (hs : s.phase ≠ .fault)
    (ht : t.phase = .fault) : ∃ trap : Trap, Instr.mayRaise i trap.cause ∧ t = raiseFault trap s := by
  rcases exec_cases i s with ⟨u, hu, hc⟩ | ⟨trap, hm, hu⟩ <;> cases he.symm.trans hu
  · exact absurd (hc.phase.symm.trans ht) hs
  · exact ⟨trap, hm, rfl⟩

/-- Settles O13: it holds, an instruction that faults raising one of the causes that are its own. -/
theorem onlyListedInstructionsFault : Obligations.OnlyListedInstructionsFault := by
  intro i s t he hs ht
  obtain ⟨trap, hm, rfl⟩ := exists_raise_of_faults he hs ht
  rw [raiseFault_fcause]
  cases i with
  | drw | ldBVx | ldMemVx => rcases hm with hm | hm <;> simp [hm, FaultCause.code]
  | ldVxMem | skp | sknp | call | ret => simp [show trap.cause = _ from hm, FaultCause.code]
  | _ => exact hm.elim

end Sys2Proof.Machine
end

section
/-! PROOF. The step around the instruction: dispatch, unknown words, invalid addresses, phases, ticks and precise
faults (40_step_cycle.md). -/

namespace Sys2Proof.Machine

open Sys2Proof.Safety

/-- Settles O5: it holds; see `step_of_decode`. -/
theorem stepRunsDecodedInstruction : Obligations.StepRunsDecodedInstruction := fun _ _ _ => step_of_decode

/-! ### Unknown words, invalid addresses, other phases -/

/-- The unknown-opcode rule with the cleared outputs and the tick changes `pc`, the outputs and the timers only. -/
theorem writesOnly_step_unknown (s : State) (w : Word) :
    writesOnly [.pc, .outputs, .dt, .st] s (execUnknown w s.clearOutputs).tick := rfl

/-- Settles O6: it holds, by the unknown-opcode rule on the cleared outputs and the tick. -/
theorem unknownOpcodeIsReportedNoOp : Obligations.UnknownOpcodeIsReportedNoOp := fun s w _ hf hd =>
  ⟨_, step_of_unknown hf hd, rfl, rfl, rfl, toNat_countDown s.dt, toNat_countDown s.st,
    (writesOnly_step_unknown s w).changesOnly⟩

/-- A raised fault is recorded with its code and its value, where that fits the 32 bits of `FADDR`. -/
theorem faultsWith_raiseFault (s : State) {trap : Trap} {code info : Nat} (hc : trap.cause.code.toNat = code)
    (hi : trap.info = info) (hlt : info < 2 ^ 32) : faultsWith code info s (raiseFault trap s) := by
  refine ⟨rfl, hc, ?_, (writesOnly_raiseFault trap s).changesOnly⟩
  rw [raiseFault_faddr, BitVec.toNat_ofNat, hi, Nat.mod_eq_of_lt hlt]

/-- A step in phase RUN at an address that cannot be fetched faults with code 1 and that address. -/
theorem step_faults_of_not_fetchable {s : State} (hr : s.phase = .run) (hf : ¬fetchable s.pc) :
    ∃ t, step s = .next t ∧ faultsWith 1 s.pc.toNat s.clearOutputs t := by
  have hv : pcValid s.pc = false := by rwa [← pcValid_iff, Bool.not_eq_true] at hf
  have hpc := s.pc.isLt
  exact ⟨_, step_of_invalid hr hv, faultsWith_raiseFault _ rfl rfl (by omega)⟩

/-- Settles O7: it holds; see `step_faults_of_not_fetchable`. -/
theorem invalidFetchAddressFaults : Obligations.InvalidFetchAddressFaults := fun _ => step_faults_of_not_fetchable

theorem writesOnly_clearOutputs (s : State) : writesOnly [.outputs] s s.clearOutputs := rfl

/-- Settles O8: it holds, a step in FAULT clearing the outputs and one in INIT being refused. -/
theorem stepOutsideRun : Obligations.StepOutsideRun :=
  ⟨fun s h => ⟨_, step_fault h, rfl, rfl, (writesOnly_clearOutputs s).changesOnly⟩, fun _ => step_init⟩

/-! ### Phases -/

/-- A step that answers began in RUN and ends in RUN or FAULT, or began and ends in FAULT. -/
theorem step_phases {s t : State} (h : StepTo s t) :
    (s.phase = .run ∧ (t.phase = .run ∨ t.phase = .fault)) ∨ (s.phase = .fault ∧ t.phase = .fault) := by
  cases h with
  | stopped hp ht => exact Or.inr ⟨hp, by simp [ht, hp]⟩
  | invalid hp hv ht => exact Or.inl ⟨hp, Or.inr (by simp [ht])⟩
  | unknown w e hf hd ht => exact Or.inl ⟨hf.1, Or.inl (by simp [ht, hf.1])⟩
  | completed w i u hf hd he hc ht => exact Or.inl ⟨hf.1, Or.inl (by simp [ht, hc.phase, hf.1])⟩
  | faulted w i trap hf hd hm he ht => exact Or.inl ⟨hf.1, Or.inr (by simp [ht])⟩

/-- Settles O9: it holds, every step outside INIT answering, in one of the five ways. -/
theorem runStepAlwaysAnswers : Obligations.RunStepAlwaysAnswers := by
  intro s hs
  obtain ⟨t, ht, hto⟩ := step_answers (s := s) (by simp [hs])
  rcases step_phases hto with ⟨-, hp⟩ | ⟨hp, -⟩
  · exact ⟨t, ht, hp⟩
  · simp [hs] at hp

/-! ### The tick -/

/-- Settles O10: it holds; the unknown-opcode rule and every instruction but FX15 and FX18 hand their timer on
to the tick, and a step that ends in RUN ticks. -/
theorem completedStepTicksTimers : Obligations.CompletedStepTicksTimers := by
  intro s t w hf h ht
  cases step_cases h with
  | stopped hp _ => simp [hf.1] at hp
  | invalid _ _ hts | faulted _ _ _ _ _ _ _ hts => simp [hts] at ht
  | unknown _ _ _ _ hts =>
    subst hts
    exact ⟨fun _ => toNat_countDown s.dt, fun _ => toNat_countDown s.st⟩
  | completed w' i u hf' hd he _ hts =>
    obtain rfl := (fetches_iff_eq hf).mp hf'
    subst hts
    simp only [hd, ne_eq, Except.ok.injEq, tick_dt, tick_st, toNat_countDown]
    constructor
    · intro hi
      have hdt : u.dt = s.clearOutputs.dt := same_of_not_mem_writes (p := .dt) he
        (fun hp => (writers_dt hp).elim hi) (by decide)
      rw [hdt, clearOutputs_dt]
    · intro hi
      have hst : u.st = s.clearOutputs.st := same_of_not_mem_writes (p := .st) he
        (fun hp => (writers_st hp).elim hi) (by decide)
      rw [hst, clearOutputs_st]

/-! ### Precise faults -/

theorem code_bounds (c : FaultCause) : 1 ≤ c.code.toNat ∧ c.code.toNat ≤ 7 := by
  cases c <;> decide

/-- A fault raised on the cleared outputs changes the run-control registers and the outputs only. -/
theorem writesOnly_raiseFault_clearOutputs (trap : Trap) (s : State) :
    writesOnly [.run, .outputs] s (raiseFault trap s.clearOutputs) := rfl

/-- A step from RUN to FAULT raised a fault on the cleared outputs. -/
theorem exists_raise_of_step_faults {s t : State} (hs : s.phase = .run) (h : step s = .next t) (ht : t.phase = .fault) :
    ∃ trap, t = raiseFault trap s.clearOutputs := by
  cases step_cases h with
  | stopped hp _ => simp [hs] at hp
  | invalid _ _ hts | faulted _ _ _ _ _ _ _ hts => exact ⟨_, hts⟩
  | unknown _ _ _ _ hts => simp [hts, hs] at ht
  | completed _ _ _ _ _ _ hc hts => simp [hts, hc.phase, hs] at ht

/-- Settles O12: it holds, a step that faults raising its fault on the cleared outputs and doing nothing else. -/
theorem faultedStepIsPrecise : Obligations.FaultedStepIsPrecise := by
  intro s t hs h ht
  obtain ⟨trap, rfl⟩ := exists_raise_of_step_faults hs h ht
  exact ⟨rfl, rfl, (code_bounds trap.cause).1, (code_bounds trap.cause).2,
    (writesOnly_raiseFault_clearOutputs trap s).changesOnly⟩

/-! ### Memory: the canonical form and the font region -/

/-- A store at `I` keeps memory canonical and the font region as it was. -/
theorem storeAtIdx_keeps_memory {s t : State} {bs : List Byte} (h0 : bs ≠ [])
    (he : conclude s (s.storeAtIdx bs) = .next t) :
    (s.mem.wf → t.mem.wf) ∧ ∀ a, a ≤ 0x04F → t.mem.read a = s.mem.read a := by
  rcases storeAtIdx_cases s bs h0 with ⟨hlo, -, u, hu, hwf, hread, -⟩ | ⟨-, hu⟩ | ⟨-, hu⟩ <;> cases he.symm.trans hu
  · refine ⟨hwf, fun a ha => ?_⟩
    rw [hread, dif_neg (by simp only [Config.fontSize] at hlo; omega)]
  · exact ⟨id, fun _ _ => rfl⟩
  · exact ⟨id, fun _ _ => rfl⟩

/-- Every instruction keeps memory canonical and the font region as it was. -/
theorem exec_keeps_memory {i : Instr} {s t : State} (he : exec i s = .next t) :
    (s.mem.wf → t.mem.wf) ∧ ∀ a, a ≤ 0x04F → t.mem.read a = s.mem.read a := by
  by_cases hw : .memory ∈ Instr.writes i
  · obtain ⟨x, rfl | rfl⟩ := writers_memory hw
    · exact storeAtIdx_keeps_memory (by simp [bcdDigits]) he
    · exact storeAtIdx_keeps_memory (s.regsUpTo_ne_nil x) he
  · have hmem : t.mem = s.mem := by
      rcases exec_frame he with h | ⟨trap, rfl⟩
      · exact h.mem hw
      · rfl
    rw [hmem]
    exact ⟨id, fun _ _ => rfl⟩

/-- Every step keeps memory canonical and the font region as it was. -/
theorem step_keeps_memory {s t : State} (h : step s = .next t) :
    (s.mem.wf → t.mem.wf) ∧ ∀ a, a ≤ 0x04F → t.mem.read a = s.mem.read a := by
  cases step_cases h with
  | stopped _ ht | invalid _ _ ht | unknown _ _ _ _ ht | faulted _ _ _ _ _ _ _ ht =>
    subst ht
    exact ⟨id, fun _ _ => rfl⟩
  | completed w i u _ _ he _ ht =>
    subst ht
    exact (exec_keeps_memory he :)

/-- Settles O18: it holds; see `step_keeps_memory`. -/
theorem stepKeepsMemoryCanonical : Obligations.StepKeepsMemoryCanonical := fun _ _ hm h => (step_keeps_memory h).1 hm

theorem step_keeps_keys {s t : State} (h : step s = .next t) : t.keys = s.keys := by
  cases step_cases h with
  | stopped _ ht | invalid _ _ ht | unknown _ _ _ _ ht | faulted _ _ _ _ _ _ _ ht => simp [ht]
  | completed w i u _ _ _ hc ht => simp [ht, hc.keys]

/-- Settles O14: it holds, no instruction writing the keys, every store lying above the font region, and the
phase changing only by a raised fault. -/
theorem stepNeverWritesKeysOrFont : Obligations.StepNeverWritesKeysOrFont := by
  intro s t h
  refine ⟨fun k _ => ?keys, (step_keeps_memory h).2, ?phase⟩
  case keys => rw [State.key, step_keeps_keys h, State.key]
  case phase =>
    rcases step_phases (step_cases h) with ⟨hs, ht⟩ | ⟨-, ht⟩
    · rwa [hs]
    · exact Or.inr ht

end Sys2Proof.Machine
end

section
/-! PROOF. The random byte reaches no step but one that executes CXNN (10_state.md section 10, 42_alu.md
section 6). -/

namespace Sys2Proof.Machine

open Sys2Proof.Safety

/-- `s` with another count of random bytes drawn. -/
def State.setDraws (s : State) (d : Nat) : State := { s with draws := d }

/-! ### Operations on a state with another draw counter -/

section
variable (s : State) (d : Nat)

/-- What the checks of the instructions read does not change with the draw counter. -/
@[simp] theorem setDraws_mem : (s.setDraws d).mem = s.mem := rfl
@[simp] theorem setDraws_pc : (s.setDraws d).pc = s.pc := rfl
@[simp] theorem setDraws_reg (x : Reg) : (s.setDraws d).reg x = s.reg x := rfl
@[simp] theorem setDraws_effAddr (k : Nat) : (s.setDraws d).effAddr k = s.effAddr k := rfl
@[simp] theorem setDraws_keyOperand (b : Byte) : (s.setDraws d).keyOperand b = s.keyOperand b := rfl
@[simp] theorem setDraws_firstKey : (s.setDraws d).firstKey = s.firstKey := rfl

theorem clearOutputs_setDraws : (s.setDraws d).clearOutputs = s.clearOutputs.setDraws d := rfl

theorem push_setDraws (w : Word) : (s.setDraws d).push w = (s.push w).map (·.setDraws d) := by
  unfold State.push
  rw [apply_dite (Except.map _)]
  rfl

theorem pop_setDraws : (s.setDraws d).pop = s.pop.map fun r => (r.1, r.2.setDraws d) := by
  unfold State.pop
  rw [apply_ite (Except.map _)]
  rfl

theorem conclude_storeAtIdx_setDraws (bs : List Byte) :
    ∃ u, conclude s (s.storeAtIdx bs) = .next u ∧
      conclude (s.setDraws d) ((s.setDraws d).storeAtIdx bs) = .next (u.setDraws d) := by
  simp only [State.storeAtIdx, setDraws_mem, setDraws_effAddr]
  cases memWriteRange s.mem (s.effAddr 0) bs <;> exact ⟨_, rfl, rfl⟩

end

/-- Every instruction but CXNN does the same, the counter apart, whatever stands in the draw counter. -/
theorem exec_and_exec_setDraws {i : Instr} (hi : ∀ x nn, i ≠ .rnd x nn) (s : State) (d : Nat) :
    ∃ u, exec i s = .next u ∧ exec i (s.setDraws d) = .next (u.setDraws d) := by
  cases i with
  | rnd x nn => exact absurd rfl (hi x nn)
  | ret =>
    simp only [exec, execRet, pop_setDraws]
    cases s.pop <;> exact ⟨_, rfl, rfl⟩
  | call nnn =>
    simp only [exec, execCall, setDraws_pc, push_setDraws]
    cases s.push s.pc <;> exact ⟨_, rfl, rfl⟩
  | skp x =>
    simp only [exec, execSkp, setDraws_reg, setDraws_keyOperand]
    cases s.keyOperand (s.reg x) <;> exact ⟨_, rfl, rfl⟩
  | sknp x =>
    simp only [exec, execSknp, setDraws_reg, setDraws_keyOperand]
    cases s.keyOperand (s.reg x) <;> exact ⟨_, rfl, rfl⟩
  | ldVxK x =>
    simp only [exec, execLdVxK, setDraws_firstKey]
    cases s.firstKey <;> exact ⟨_, rfl, rfl⟩
  | ldBVx x => exact conclude_storeAtIdx_setDraws s d (bcdDigits (s.reg x))
  | ldMemVx x => exact conclude_storeAtIdx_setDraws s d (s.regsUpTo x)
  | ldVxMem x =>
    simp only [exec, execLdVxMem, setDraws_mem, setDraws_effAddr]
    cases memReadRange s.mem (s.effAddr 0) (x.toNat + 1) <;> exact ⟨_, rfl, rfl⟩
  | drw x y n =>
    simp only [exec, execDrw, setDraws_mem, setDraws_effAddr, setDraws_reg]
    cases memReadRange s.mem (s.effAddr 0) n.toNat with
    | error trap => exact ⟨_, rfl, rfl⟩
    | ok rows =>
      dsimp only
      cases checkPixels (spritePixels (s.reg x).toNat (s.reg y).toNat rows) <;> exact ⟨_, rfl, rfl⟩
  | _ => exact ⟨_, rfl, rfl⟩

/-- What an instruction but CXNN answers with another draw counter, where it answers `u` with this one. -/
theorem exec_setDraws_of_next {i : Instr} {s u : State} (hi : ∀ x nn, i ≠ .rnd x nn) (he : exec i s = .next u)
    (d : Nat) : exec i (s.setDraws d) = .next (u.setDraws d) := by
  obtain ⟨u', he', hed⟩ := exec_and_exec_setDraws hi s d
  cases he.symm.trans he'
  exact hed

/-- Settles O15: it holds, fetch, faults and every instruction but CXNN commuting with a write of the draw
counter and leaving it alone. -/
theorem randomByteOnlyReachesRnd : Obligations.RandomByteOnlyReachesRnd := by
  intro s t d hrnd h
  change t.draws = s.draws ∧ step (s.setDraws d) = .next (t.setDraws d)
  have hi {w : Word} {i : Instr} (hf : fetches s w) (hd : decodeWord w = .ok i) (x : Reg) (nn : Byte) :
      i ≠ .rnd x nn := fun hi => hrnd w x nn hf (hi ▸ hd)
  cases step_cases h with
  | stopped hp ht =>
    subst ht
    exact ⟨rfl, step_fault (s := s.setDraws d) hp⟩
  | invalid hp hv ht =>
    subst ht
    exact ⟨rfl, step_of_invalid (s := s.setDraws d) hp hv⟩
  | unknown w e hf hd ht =>
    subst ht
    exact ⟨rfl, step_of_unknown (s := s.setDraws d) hf hd⟩
  | completed w i u hf hd he hc ht =>
    subst ht
    have hdraws : u.draws = s.clearOutputs.draws := same_of_not_mem_writes (p := .draws) he
      (fun hp => by obtain ⟨x, nn, hx⟩ := writers_draws hp; exact hi hf hd x nn hx) (by decide)
    exact ⟨hdraws, step_of_exec (s := s.setDraws d) hf hd (exec_setDraws_of_next (hi hf hd) he d) (hc.phase.trans hf.1)⟩
  | faulted w i trap hf hd hm he ht =>
    subst ht
    refine ⟨rfl, ?_⟩
    rw [step_of_decode (s := s.setDraws d) hf hd, clearOutputs_setDraws, exec_setDraws_of_next (hi hf hd) he d]
    rfl

end Sys2Proof.Machine
end

section
/-! PROOF. Jumps, calls, returns and the skips on keys (41_control_flow.md sections 2 to 6, 45_keys_timers.md
section 1). -/

namespace Sys2Proof.Machine

open Sys2Proof.Safety

/-! ### Jumps -/

/-- A step at a target `n` that cannot be fetched faults with code 1 and `n` (decision D2). -/
theorem step_faults_at_target {u : State} {n : Nat} (hn : u.pc.toNat = n) (hr : u.phase = .run)
    (hf : ¬fetchable u.pc) : ∃ u', step u = .next u' ∧ faultsWith 1 n u.clearOutputs u' :=
  hn ▸ step_faults_of_not_fetchable hr hf

/-- What an instruction that writes `w` to `pc`, of value `n`, answers, and what a step there does if `n` cannot
be fetched. -/
theorem setPc_outcome {i : Instr} {s : State} {w : Word} {n : Nat} (he : exec i s = .next (s.setPc w))
    (hw : w.toNat = n) :
    ∃ t, exec i s = .next t ∧ t.pc.toNat = n ∧ changesOnly [.pc] s t ∧
      ∀ u : State, u.phase = .run → u.pc = t.pc → ¬fetchable u.pc →
        ∃ u', step u = .next u' ∧ faultsWith 1 n u.clearOutputs u' := by
  refine ⟨s.setPc w, he, hw, changesOnly_setPc s w, fun u hr hpc => step_faults_at_target ?_ hr⟩
  rw [hpc, setPc_pc, hw]

/-- Settles O23: it holds, 1NNN being one write of `pc` with the zero-extended target. -/
theorem jumpSetsPc : Obligations.JumpSetsPc := fun _ nnn => setPc_outcome rfl (toNat_addrOperand nnn)

/-- The sum BNNN jumps to fits a word, so it is not reduced. -/
theorem toNat_addrOperand_add (nnn : Addr12) (b : Byte) :
    (addrOperand nnn + b.setWidth 16).toNat = nnn.toNat + b.toNat := by
  have hn := nnn.isLt
  have hb := b.isLt
  rw [BitVec.toNat_add, toNat_addrOperand, BitVec.toNat_setWidth]
  omega

/-- Settles O24: it holds, BNNN being one write of `pc` with a sum of at most 0xFFF + 0xFF. -/
theorem indexedJumpSetsPc : Obligations.IndexedJumpSetsPc := by
  intro s nnn
  obtain ⟨t, he, hpc, hframe⟩ := setPc_outcome (i := .jpV0 nnn) (s := s) rfl (toNat_addrOperand_add nnn (s.reg 0#4))
  have hn := nnn.isLt
  have hb := (s.reg 0#4).isLt
  exact ⟨t, he, hpc, by omega, hframe⟩

/-! ### Calls and returns -/

/-- Settles O26: it holds; see `execCall_cases`. -/
theorem callPushesItsAddress : Obligations.CallPushesItsAddress := by
  intro s nnn hsp
  rcases execCall_cases nnn s with ⟨-, t, ht, -, hts, hslot, hother, hupd⟩ | ⟨hfull, -⟩
  · have hframe : writesOnly [.stack, .pc] s t := by rw [hupd]; rfl
    have hpc : t.pc = addrOperand nnn := by rw [hupd]
    exact ⟨t, ht, hslot, hts, by rw [hpc, toNat_addrOperand], fun k _ => hother k, hframe.changesOnly⟩
  · omega

/-- Settles O27: it holds; see `execRet_cases`. -/
theorem returnPopsPlusTwo : Obligations.ReturnPopsPlusTwo := by
  intro s hsp
  rcases execRet_cases s with ⟨-, t, ht, -, hts, hupd⟩ | ⟨hempty, -⟩
  · have hframe : writesOnly [.stack, .pc] s t := by rw [hupd]; rfl
    have hslot (k : Nat) : t.slot k = s.slot k := by rw [hupd]; rfl
    exact ⟨t, ht, by rw [hupd], hts, fun k _ => hslot k, hframe.changesOnly⟩
  · exact absurd hempty hsp

/-- Settles O29: it holds, the return popping the slot the call pushed its own address to. -/
theorem callThenReturnRoundTrip : Obligations.CallThenReturnRoundTrip := by
  intro s nnn hsp
  obtain ⟨t, ht, hslot, htsp, -⟩ := callPushesItsAddress s nnn hsp
  obtain ⟨u, hu, hpc, husp, -⟩ := returnPopsPlusTwo t (by omega)
  have hpop : t.sp.val - 1 = s.sp.val := by omega
  exact ⟨t, u, ht, hu, by rw [hpc, hpop, hslot], Fin.ext (husp.trans hpop)⟩

/-- Settles O28: it holds, the stack and key checks raising their faults in the state before the instruction. -/
theorem stackAndKeyFaults : Obligations.StackAndKeyFaults := by
  refine ⟨fun s nnn hsp => ?call, fun s hsp => ?ret, fun s x hx => ⟨?skp, ?sknp⟩⟩
  case call =>
    rcases execCall_cases nnn s with ⟨hlt, -⟩ | ⟨-, ht⟩
    · omega
    · exact ⟨_, ht, faultsWith_raiseFault s rfl rfl (by decide)⟩
  case ret =>
    rcases execRet_cases s with ⟨hne, -⟩ | ⟨-, ht⟩
    · exact absurd hsp hne
    · exact ⟨_, ht, faultsWith_raiseFault s rfl rfl (by decide)⟩
  case skp =>
    rcases execSkp_cases x s with ⟨hle, -⟩ | ⟨-, ht⟩
    · omega
    · exact ⟨_, ht, faultsWith_raiseFault s rfl rfl (by have := (s.reg x).isLt; omega)⟩
  case sknp =>
    rcases execSknp_cases x s with ⟨hle, -⟩ | ⟨-, ht⟩
    · omega
    · exact ⟨_, ht, faultsWith_raiseFault s rfl rfl (by have := (s.reg x).isLt; omega)⟩

/-! ### Skips on keys -/

/-- Settles O50: it holds, each of the two being a skip on the key flag the whole byte names. -/
theorem skipOnKey : Obligations.SkipOnKey := by
  intro s x hx
  refine ⟨?skp, ?sknp⟩
  case skp =>
    rcases execSkp_cases x s with ⟨-, ht⟩ | ⟨hlt, -⟩
    · exact skip_outcome ht id id
    · omega
  case sknp =>
    rcases execSknp_cases x s with ⟨-, ht⟩ | ⟨hlt, -⟩
    · exact skip_outcome ht (fun h => by rw [h, Bool.not_false]) (fun h => by rw [h, Bool.not_true])
    · omega

end Sys2Proof.Machine
end

section
/-! PROOF. The flag-writing arithmetic, the random byte, the index addition, the key wait and the timer read
(42_alu.md sections 4 to 6, 43_index_memory.md section 1, 45_keys_timers.md sections 2 and 3). -/

namespace Sys2Proof.Machine

open Sys2Proof.Safety

/-! ### Flag first, result second (42_alu.md R160; decision D12, log 8) -/

section
variable (s : State) (x y : Reg) (flag result : Byte → Byte → Byte)

theorem writesOnly_flagThenResult : writesOnly [.regs, .pc] s (flagThenResult x y flag result s) := rfl

theorem regsKeptBut_flagThenResult : regsKeptBut [x, 15#4] s (flagThenResult x y flag result s) := by
  intro r hr
  simp only [List.mem_cons, List.not_mem_nil, or_false, not_or] at hr
  simp [flagThenResult_reg, Ne.symm hr.1, Ne.symm hr.2]

end

/-- The case table of 42_alu.md section 4, for any flag of value `c` and any result that is `r` on values: the
result is taken of the operands as they stand once `VF` is written. -/
theorem flagThenResult_outcome {i : Instr} {s : State} {x y : Reg} {flag result : Byte → Byte → Byte} {c : Nat}
    {r : Nat → Nat → Nat} (he : exec i s = .next (flagThenResult x y flag result s))
    (hc : (flag (s.reg x) (s.reg y)).toNat = c) (hr : ∀ a b, (result a b).toNat = r a.toNat b.toNat) :
    ∃ t, exec i s = .next t ∧ t.pc = s.pc + 2#16 ∧ regsKeptBut [x, 15#4] s t ∧ changesOnly [.regs, .pc] s t ∧
      (x ≠ 15#4 → y ≠ 15#4 →
        (t.reg x).toNat = r (s.reg x).toNat (s.reg y).toNat ∧ (t.reg 15#4).toNat = c) ∧
      (x ≠ 15#4 → y = 15#4 → (t.reg x).toNat = r (s.reg x).toNat c ∧ (t.reg 15#4).toNat = c) ∧
      (x = 15#4 → y ≠ 15#4 → (t.reg 15#4).toNat = r c (s.reg y).toNat) ∧
      (x = 15#4 → y = 15#4 → (t.reg 15#4).toNat = r c c) := by
  refine ⟨_, he, rfl, regsKeptBut_flagThenResult s x y flag result, (writesOnly_flagThenResult ..).changesOnly,
    fun hx hy => ?neither, fun hx hy => ?second, fun hx hy => ?first, fun hx hy => ?both⟩
  case neither => simp [flagThenResult_reg, hx, Ne.symm hx, Ne.symm hy, hr, hc]
  case second =>
    subst hy
    simp [flagThenResult_reg, hx, Ne.symm hx, hr, hc]
  case first =>
    subst hx
    simp [flagThenResult_reg, Ne.symm hy, hr, hc]
  case both =>
    subst hx hy
    simp [flagThenResult_reg, hr, hc]

theorem toNat_carryFlag (a b : Byte) : (carryFlag a b).toNat = if a.toNat + b.toNat > 255 then 1 else 0 := by
  simp [carryFlag]

theorem toNat_notBorrowFlag (a b : Byte) : (notBorrowFlag a b).toNat = if b.toNat > a.toNat then 0 else 1 := by
  rw [notBorrowFlag, toNat_flagByte]
  by_cases h : b.toNat > a.toNat <;> simp [h]

/-- Byte subtraction as the tables word it. -/
theorem toNat_sub_byte (a b : Byte) : (a - b).toNat = (a.toNat + 256 - b.toNat) % 256 := by
  have := b.isLt
  rw [BitVec.toNat_sub]
  congr 1
  omega

/-- Settles O32: it holds, by the case table with the carry and the byte sum. -/
theorem addWithCarryTable : Obligations.AddWithCarryTable := by
  intro s x y a b c
  obtain ⟨t, he, hpc, hregs, hframe, hneither, hsecond, hfirst, hboth⟩ :=
    flagThenResult_outcome (i := .addVxVy x y) (r := fun a b => (a + b) % 256) rfl
      (toNat_carryFlag (s.reg x) (s.reg y)) BitVec.toNat_add
  refine ⟨t, he, hpc, hregs, hframe, hneither, hsecond, hfirst, fun hx hy => (hboth hx hy).trans ?_⟩
  have hc : c ≤ 1 := by
    simp only [c]
    split <;> omega
  change (c + c) % 256 = 2 * c
  omega

/-- A byte less itself is 0, as the tables word the difference. -/
theorem sub_self_mod_byte (f : Nat) : (f + 256 - f) % 256 = 0 := by
  rw [Nat.add_sub_cancel_left]

/-- Settles O33: it holds, by the case table with the not-borrow and the byte difference. -/
theorem subtractTable : Obligations.SubtractTable := by
  intro s x y a b f
  obtain ⟨t, he, hpc, hregs, hframe, hneither, hsecond, hfirst, hboth⟩ :=
    flagThenResult_outcome (i := .sub x y) (r := fun a b => (a + 256 - b) % 256) rfl
      (toNat_notBorrowFlag (s.reg x) (s.reg y)) toNat_sub_byte
  exact ⟨t, he, hpc, hregs, hframe, hneither, hsecond, hfirst, fun hx hy => (hboth hx hy).trans (sub_self_mod_byte f)⟩

/-- Settles O34: it holds, by the case table with the not-borrow and the difference the other way round. -/
theorem reverseSubtractTable : Obligations.ReverseSubtractTable := by
  intro s x y a b f
  obtain ⟨t, he, hpc, hregs, hframe, hneither, hsecond, hfirst, hboth⟩ :=
    flagThenResult_outcome (i := .subn x y) (r := fun a b => (b + 256 - a) % 256) rfl
      (toNat_notBorrowFlag (s.reg y) (s.reg x)) fun a b => toNat_sub_byte b a
  exact ⟨t, he, hpc, hregs, hframe, hneither, hsecond, hfirst, fun hx hy => (hboth hx hy).trans (sub_self_mod_byte f)⟩

/-! ### Shifts in place: both operands of the table are `V[X]` -/

theorem toNat_shiftRightFlag (a : Byte) : (shiftRightFlag a).toNat = a.toNat % 2 := by
  rw [shiftRightFlag, BitVec.toNat_and]
  exact Nat.and_one_is_mod _

theorem toNat_shiftLeftFlag (a : Byte) : (shiftLeftFlag a).toNat = a.toNat / 128 := by
  rw [shiftLeftFlag, BitVec.toNat_ushiftRight, Nat.shiftRight_eq_div_pow]

theorem toNat_shiftRight_one (a : Byte) : (a >>> 1).toNat = a.toNat / 2 := by
  rw [BitVec.toNat_ushiftRight, Nat.shiftRight_eq_div_pow]

theorem toNat_shiftLeft_one (a : Byte) : (a <<< 1).toNat = 2 * a.toNat % 256 := by
  rw [BitVec.toNat_shiftLeft, Nat.shiftLeft_eq]
  omega

/-- Settles O35: it holds, by the case table with the bit shifted out and the half; with `X = 15` the half is
that of the bit. -/
theorem shiftRightInPlace : Obligations.ShiftRightInPlace := by
  intro s x y
  obtain ⟨t, he, hpc, hregs, hframe, hneither, -, -, hboth⟩ :=
    flagThenResult_outcome (i := .shr x y) (r := fun a _ => a / 2) rfl
      (toNat_shiftRightFlag (s.reg x)) fun a _ => toNat_shiftRight_one a
  refine ⟨t, he, hpc, hregs, hframe, fun hx => hneither hx hx, fun hx => BitVec.eq_of_toNat_eq ((hboth hx hx).trans ?_)⟩
  change (s.reg x).toNat % 2 / 2 = 0
  omega

/-- Settles O36: it holds, by the case table with the bit shifted out and the double; with `X = 15` the double
is that of the bit. -/
theorem shiftLeftInPlace : Obligations.ShiftLeftInPlace := by
  intro s x y
  obtain ⟨t, he, hpc, hregs, hframe, hneither, -, -, hboth⟩ :=
    flagThenResult_outcome (i := .shl x y) (r := fun a _ => 2 * a % 256) rfl
      (toNat_shiftLeftFlag (s.reg x)) fun a _ => toNat_shiftLeft_one a
  refine ⟨t, he, hpc, hregs, hframe, fun hx => hneither hx hx, fun hx => (hboth hx hx).trans ?_⟩
  have hb := (s.reg x).isLt
  change 2 * ((s.reg x).toNat / 128) % 256 = _
  rw [← hx]
  omega

/-! ### The random byte -/

/-- Settles O37: it holds, CXNN being one register write on the state that has drawn the byte. -/
theorem randomIsMaskedFreeByte : Obligations.RandomIsMaskedFreeByte := by
  intro s x nn
  have hreg : (s.draw.2.setReg x (s.draw.1 &&& nn)).advance.reg x = Config.rnd s.draws &&& nn := by simp
  have hframe : writesOnly [.regs, .pc, .draws] s (s.draw.2.setReg x (s.draw.1 &&& nn)).advance := rfl
  refine ⟨_, rfl, hreg, fun k hk => ?_, rfl, rfl, regsKeptBut_advance_setReg s.draw.2 x _, hframe.changesOnly⟩
  rw [hreg, BitVec.getLsbD_and, Bool.and_eq_true] at hk
  exact hk.2

/-! ### The index addition -/

/-- Settles O39: it holds, FX1E being one index write of a 16-bit sum. -/
theorem indexAddWraps : Obligations.IndexAddWraps := by
  intro s x
  refine setIdx_outcome rfl ?_
  have hx := (s.reg x).isLt
  rw [BitVec.toNat_add, BitVec.toNat_setWidth]
  omega

/-! ### The key wait -/

/-- The lowest key that is down is the one FX0A takes. -/
theorem firstKey_eq_of_lowest {s : State} {k : Nat} (hdown : s.key k = true)
    (hlow : ∀ j, j < k → s.key j = false) : s.firstKey = some k := by
  cases h : s.firstKey with
  | none => simp [State.firstKey_none.mp h k] at hdown
  | some j =>
    obtain ⟨-, hj, hjlow⟩ := State.firstKey_some h
    rcases Nat.lt_trichotomy j k with hlt | heq | hgt
    · simp [hlow j hlt] at hj
    · rw [heq]
    · simp [hjlow k hgt] at hdown

/-- Settles O51: it holds, the first key being none when all sixteen are up and the lowest otherwise. -/
theorem waitForKey : Obligations.WaitForKey := by
  intro s x
  refine ⟨fun hup => ?wait, fun k hk hdown hlow => ?take⟩
  case wait =>
    have hnone : s.firstKey = none := by
      cases h : s.firstKey with
      | none => rfl
      | some k =>
        obtain ⟨hk, hdown, -⟩ := State.firstKey_some h
        simp [hup k hk] at hdown
    have hframe : writesOnly [] s s := rfl
    exact ⟨s, by simp only [exec, execLdVxK, hnone], hframe.changesOnly⟩
  case take =>
    have he : exec (.ldVxK x) s = .next (s.setReg x (BitVec.ofNat 8 k)).advance := by
      simp only [exec, execLdVxK, firstKey_eq_of_lowest hdown hlow]
    obtain ⟨t, ht, hx, hframe⟩ := setReg_outcome he
    refine ⟨t, ht, ?_, hframe⟩
    rw [hx, BitVec.toNat_ofNat]
    omega

/-! ### The timer read -/

/-- Settles O52: it holds, FX07 being one register write before the tick. -/
theorem readDelayTimer : Obligations.ReadDelayTimer := by
  refine ⟨fun s x => setReg_outcome rfl, fun s w x hf hd => ?_⟩
  refine ⟨(s.clearOutputs.setReg x s.dt).advance.tick, step_of_exec hf hd rfl hf.1, by simp, toNat_countDown s.dt⟩

end Sys2Proof.Machine
end

section
/-! PROOF. Stores and loads at `I` (43_index_memory.md sections 2 and 3, 20_memory.md section 6). -/

namespace Sys2Proof.Machine

open Sys2Proof.Safety

/-! ### Stores -/

section
variable {i : Instr} {s : State} {bs : List Byte} (he : exec i s = conclude s (s.storeAtIdx bs)) (h0 : bs ≠ [])
include he h0

/-- What an instruction that stores bytes at `I` answers when they all lie in RAM. -/
theorem store_outcome (hlo : 0x050 ≤ s.idx.toNat) (hhi : s.idx.toNat + bs.length ≤ 0x1000) :
    ∃ t, exec i s = .next t ∧ (∀ k (h : k < bs.length), t.mem.read (s.idx.toNat + k) = bs[k]) ∧
      memoryKeptOutside s.idx.toNat bs.length s t ∧ t.pc = s.pc + 2#16 ∧ changesOnly [.memory, .pc] s t := by
  rcases storeAtIdx_cases s bs h0 with ⟨-, -, t, ht, -, hread, hupd⟩ | ⟨hoob, -⟩ | ⟨hfont, -⟩
  · have hframe : writesOnly [.memory, .pc] s t := by rw [hupd]; rfl
    refine ⟨t, he.trans ht, fun k hk => ?_, fun b hb => ?_, by rw [hupd], hframe.changesOnly⟩
    · rw [hread, dif_pos ⟨Nat.le_add_right _ _, Nat.add_lt_add_left hk _⟩]
      simp only [Nat.add_sub_cancel_left]
    · rw [hread, dif_neg hb]
  · simp only [Config.addrMax] at hoob
    omega
  · simp only [Config.fontSize] at hfont
    omega

/-- An instruction whose store leaves the address space faults with code 2. -/
theorem store_faults_oob (hlen : bs.length ≤ 16) (hhi : 0xFFF < s.idx.toNat + (bs.length - 1)) :
    ∃ t, exec i s = .next t ∧ faultsWith 2 (max s.idx.toNat 0x1000) s t := by
  have hidx := s.idx.isLt
  rcases storeAtIdx_cases s bs h0 with ⟨-, hle, -⟩ | ⟨-, ht⟩ | ⟨hfont, -⟩
  · simp only [Config.addrMax] at hle
    have := List.length_pos_iff.mpr h0
    omega
  · exact ⟨_, he.trans ht, faultsWith_raiseFault s rfl rfl (by omega)⟩
  · simp only [Config.fontSize] at hfont
    omega

/-- An instruction whose store begins in the font region faults with code 3. -/
theorem store_faults_font (hlen : bs.length ≤ 16) (hlo : s.idx.toNat ≤ 0x04F) :
    ∃ t, exec i s = .next t ∧ faultsWith 3 s.idx.toNat s t := by
  rcases storeAtIdx_cases s bs h0 with ⟨hge, -⟩ | ⟨hoob, -⟩ | ⟨-, ht⟩
  · simp only [Config.fontSize] at hge
    omega
  · simp only [Config.addrMax] at hoob
    omega
  · exact ⟨_, he.trans ht, faultsWith_raiseFault s rfl rfl (by omega)⟩

end

/-- Settles O40: it holds, FX33 storing the three decimal digits. -/
theorem bcdStores : Obligations.BcdStores := by
  intro s x hlo hhi
  obtain ⟨t, he, hread, hframe⟩ := store_outcome (i := .ldBVx x) (bs := bcdDigits (s.reg x)) rfl (by simp [bcdDigits]) hlo
    (by simp only [bcdDigits, List.length_cons, List.length_nil]; omega)
  have hb := (s.reg x).isLt
  refine ⟨t, he, ?_, ?_, ?_, hframe⟩
  · rw [← Nat.add_zero s.idx.toNat, hread 0 (by simp [bcdDigits])]
    simp only [bcdDigits, List.getElem_cons_zero, BitVec.toNat_ofNat]
    omega
  · rw [hread 1 (by simp [bcdDigits])]
    simp only [bcdDigits, List.getElem_cons_succ, List.getElem_cons_zero, BitVec.toNat_ofNat]
    omega
  · rw [hread 2 (by simp [bcdDigits])]
    simp only [bcdDigits, List.getElem_cons_succ, List.getElem_cons_zero, BitVec.toNat_ofNat]
    omega

/-- Settles O41: it holds, FX55 storing the registers up to `V[X]`. -/
theorem registerStores : Obligations.RegisterStores := by
  intro s x hlo hhi
  obtain ⟨t, he, hread, hkept, hframe⟩ := store_outcome (i := .ldMemVx x) rfl (s.regsUpTo_ne_nil x) hlo
    (by rw [State.length_regsUpTo]; omega)
  rw [State.length_regsUpTo] at hkept
  refine ⟨t, he, fun r hr => ?_, hkept, hframe⟩
  rw [hread r.toNat (by rw [State.length_regsUpTo]; omega), State.getElem_regsUpTo, BitVec.ofNat_toNat,
    BitVec.setWidth_eq]

/-! ### Loads -/

/-- Settles O42: it holds; see `execLdVxMem_cases`. -/
theorem registerLoads : Obligations.RegisterLoads := by
  intro s x hhi
  rcases execLdVxMem_cases x s with ⟨-, t, ht, hreg, hupd⟩ | ⟨hoob, -⟩
  · have hframe : writesOnly [.regs, .pc] s t := by rw [hupd]; rfl
    refine ⟨t, ht, fun r hr => ?_, fun r hr => ?_, by rw [hupd], hframe.changesOnly⟩
    · rw [hreg, if_pos hr]
    · rw [hreg, if_neg (Nat.not_le.mpr hr)]
  · simp only [Config.addrMax] at hoob
    omega

/-- FX65 past the top of memory faults with code 2. -/
theorem load_faults_oob {s : State} {x : Reg} (hhi : 0xFFF < s.idx.toNat + x.toNat) :
    ∃ t, exec (.ldVxMem x) s = .next t ∧ faultsWith 2 (max s.idx.toNat 0x1000) s t := by
  have hidx := s.idx.isLt
  rcases execLdVxMem_cases x s with ⟨hle, -⟩ | ⟨-, ht⟩
  · simp only [Config.addrMax] at hle
    omega
  · exact ⟨_, ht, faultsWith_raiseFault s rfl rfl (by omega)⟩

/-- Settles O43: it holds, the range checks raising their faults in the state before the instruction. -/
theorem rangeFaults : Obligations.RangeFaults := by
  intro s x
  have hx := x.isLt
  have hlen : (s.regsUpTo x).length ≤ 16 := by rw [State.length_regsUpTo]; omega
  refine ⟨fun hhi => ?_, fun hlo => ?_, fun hhi => ?_, fun hlo => ?_, load_faults_oob⟩
  · exact store_faults_oob (bs := bcdDigits (s.reg x)) rfl (by simp [bcdDigits]) (by simp [bcdDigits]) hhi
  · exact store_faults_font (bs := bcdDigits (s.reg x)) rfl (by simp [bcdDigits]) (by simp [bcdDigits]) hlo
  · exact store_faults_oob rfl (s.regsUpTo_ne_nil x) hlen (by rwa [State.length_regsUpTo])
  · exact store_faults_font rfl (s.regsUpTo_ne_nil x) hlen hlo

/-! ### A stored word is fetched next -/

/-- Settles O44: it holds, fetch reading the memory the store wrote. -/
theorem storedWordIsFetchedNext : Obligations.StoredWordIsFetchedNext := by
  intro s w w' x hf hd hx hidx hhi hw'
  have ⟨hrun, ⟨heven, hlo, _⟩, _⟩ := hf
  obtain ⟨u, he, hread, -, hpc, hframe⟩ := registerStores s.clearOutputs x
    (by rw [clearOutputs_idx]; omega) (by rwa [clearOutputs_idx])
  have hurun : u.phase = .run := (hframe .run (by decide)).1.trans hrun
  have hupc : u.pc.toNat = s.pc.toNat + 2 := by
    rw [hpc, clearOutputs_pc]
    bv_omega
  have hreads (r : Reg) (hr : r.toNat ≤ x.toNat) : u.mem.read (u.pc.toNat + r.toNat) = s.reg r := by
    rw [hupc, ← hidx]
    exact hread r hr
  refine ⟨u.tick, step_of_exec hf hd he hurun, hurun, ⟨?even, ?low, ?high⟩, ?word⟩
  case even => rw [tick_pc]; omega
  case low => rw [tick_pc]; omega
  case high => rw [tick_pc]; omega
  case word =>
    rw [wordAt, hw', tick_mem, tick_pc, ← hreads 0#4 (Nat.zero_le _), ← hreads 1#4 hx]
    rfl

end Sys2Proof.Machine
end

section
/-! PROOF. The sprite draw (44_display.md sections 1 and 3). -/

namespace Sys2Proof.Machine

open Sys2Proof.Safety

/-! ### The pixels of DXYN in the words of the rules -/

/-- The targets of the set bits of the sprite at `I`, drawn at (`V[x]`, `V[y]`), in scan order. -/
def State.spriteTargets (s : State) (x y : Reg) (n : BitVec 4) : List Pixel :=
  spritePixels (s.reg x).toNat (s.reg y).toNat (s.spriteRows n)

section
variable {s : State} {x y : Reg} {n : BitVec 4}

theorem mem_spriteTargets {p : Pixel} :
    p ∈ s.spriteTargets x y n ↔ ∃ r c, r < n.toNat ∧ c < 8 ∧ spriteBitSet s r c ∧
      p = ⟨(s.reg x).toNat + c, (s.reg y).toNat + r⟩ := by
  simp [State.spriteTargets, mem_spritePixels, State.spriteRows, spriteBit, spriteBitSet]

/-- A target lies outside the grid exactly when it is not inside. -/
theorem target_outside_eq_false {r c : Nat} :
    (⟨(s.reg x).toNat + c, (s.reg y).toNat + r⟩ : Pixel).outside = false ↔ targetInside s x y r c :=
  Pixel.outside_eq_false

theorem spriteInside_iff : spriteInside s x y n ↔ ∀ p ∈ s.spriteTargets x y n, p.outside = false := by
  constructor
  · intro h p hp
    obtain ⟨r, c, hr, hc, hb, rfl⟩ := mem_spriteTargets.mp hp
    exact target_outside_eq_false.mpr (h r c hr hc hb)
  · intro h r c hr hc hb
    exact target_outside_eq_false.mp (h _ (mem_spriteTargets.mpr ⟨r, c, hr, hc, hb, rfl⟩))

/-- A cell is covered exactly when it is the index of a target. -/
theorem spriteCovers_iff {k : Nat} : spriteCovers s x y n k ↔ k ∈ (s.spriteTargets x y n).map Pixel.index := by
  rw [List.mem_map]
  constructor
  · rintro ⟨r, c, hr, hc, hb, rfl⟩
    exact ⟨_, mem_spriteTargets.mpr ⟨r, c, hr, hc, hb, rfl⟩, rfl⟩
  · rintro ⟨p, hp, rfl⟩
    obtain ⟨r, c, hr, hc, hb, rfl⟩ := mem_spriteTargets.mp hp
    exact ⟨r, c, hr, hc, hb, rfl⟩

/-- DXYN with its rows in memory and its set bits inside the grid draws the sprite. -/
theorem exec_drw_of_inside (hread : spriteReadable s n) (hin : spriteInside s x y n) :
    exec (.drw x y n) s = .next (s.drawSprite (s.spriteTargets x y n)) := by
  rcases execDrw_cases x y n s with ⟨-, -, ht⟩ | ⟨hpos, hoob, -⟩ | ⟨-, p, hp, hout, -⟩
  · exact ht
  · simp only [Config.addrMax] at hoob
    rcases hread with h0 | hle <;> omega
  · simp [spriteInside_iff.mp hin p hp] at hout

/-! ### What drawing the targets does -/

theorem drawSprite_reg (ps : List Pixel) (r : Reg) :
    (s.drawSprite ps).reg r = if vf = r then collisionFlag (drawPixels s.fb false ps).2 else s.reg r :=
  State.reg_setReg _ _ _ r

theorem regsKeptBut_drawSprite (ps : List Pixel) : regsKeptBut [15#4] s (s.drawSprite ps) := by
  intro r hr
  rw [drawSprite_reg, if_neg fun h => hr (List.mem_singleton.mpr h.symm)]

theorem writesOnly_drawSprite (ps : List Pixel) :
    writesOnly [.regs, .screen, .outputs, .pc] s (s.drawSprite ps) := rfl

/-- A draw inside the grid toggles the covered cells and no other. -/
theorem cell_drawSprite (hin : spriteInside s x y n) (k : Nat) :
    (s.drawSprite (s.spriteTargets x y n)).cell k =
      (s.cell k ^^ decide (k ∈ (s.spriteTargets x y n).map Pixel.index)) :=
  have hout := spriteInside_iff.mp hin
  (drawPixels_spec s.fb false _ (fun p hp => Pixel.index_lt (hout p hp)) (nodup_sprite_indices _ _ _ hout)).1 k

/-- A draw inside the grid reports a collision exactly if a covered cell was 1. -/
theorem drawPixels_hit_iff (hin : spriteInside s x y n) :
    ((drawPixels s.fb false (s.spriteTargets x y n)).2 = true ↔ ∃ k, spriteCovers s x y n k ∧ s.cell k = true) := by
  have hout := spriteInside_iff.mp hin
  rw [(drawPixels_spec s.fb false (s.spriteTargets x y n) (fun p hp => Pixel.index_lt (hout p hp))
    (nodup_sprite_indices _ _ _ hout)).2]
  simp [spriteCovers_iff, State.cell]

end

/-- Settles O46: it holds, the targets inside the grid being distinct cells. -/
theorem drawTogglesCoveredCells : Obligations.DrawTogglesCoveredCells := by
  intro s x y n hread hin
  refine ⟨_, exec_drw_of_inside hread hin, fun k hk => ?toggled, fun k _ hk => ?untouched, fun hk => ?hit,
    fun hk => ?noHit, rfl, rfl, rfl, regsKeptBut_drawSprite _, (writesOnly_drawSprite _).changesOnly⟩
  case toggled => rw [cell_drawSprite hin, decide_eq_true (spriteCovers_iff.mp hk), Bool.xor_true]
  case untouched => rw [cell_drawSprite hin, decide_eq_false (spriteCovers_iff.not.mp hk), Bool.xor_false]
  case hit =>
    rw [drawSprite_reg, if_pos rfl, (drawPixels_hit_iff hin).mpr hk]
    rfl
  case noHit =>
    have hclear : ¬∃ k, spriteCovers s x y n k ∧ s.cell k = true := fun ⟨k, hc, h1⟩ => by simp [hk k hc] at h1
    rw [drawSprite_reg, if_pos rfl, Bool.eq_false_iff.mpr ((drawPixels_hit_iff hin).not.mpr hclear)]
    rfl

/-- Settles O47: it holds, the rows being read before any target is checked. -/
theorem drawOutOfMemoryFaults : Obligations.DrawOutOfMemoryFaults := by
  intro s x y n hread
  have hidx := s.idx.isLt
  rcases execDrw_cases x y n s with ⟨hok, -⟩ | ⟨-, -, ht⟩ | ⟨hok, -⟩
  · exact absurd hok hread
  · exact ⟨_, ht, faultsWith_raiseFault s rfl rfl (by omega)⟩
  · exact absurd hok hread

/-- What `FADDR` records of a target, as a number. -/
theorem faultInfo_eq (p : Pixel) (h : p.col < 65536) : p.faultInfo = p.row * 65536 + p.col := by
  rw [Pixel.faultInfo, ← Nat.shiftLeft_add_eq_or_of_lt h, Nat.shiftLeft_eq]

/-- Settles O48: it holds, the scan of the targets in order stopping at the first one outside. -/
theorem drawOutsideGridFaults : Obligations.DrawOutsideGridFaults := by
  intro s x y n r c hread hr hc hb hout hfirst
  have hx := (s.reg x).isLt
  have hy := (s.reg y).isLt
  have hn := n.isLt
  have hmem : (⟨(s.reg x).toNat + c, (s.reg y).toNat + r⟩ : Pixel) ∈ s.spriteTargets x y n :=
    mem_spriteTargets.mpr ⟨r, c, hr, hc, hb, rfl⟩
  have hcheck := checkPixels_error (spritePixels_sorted _ _ _) hmem
    (Bool.of_not_eq_false (target_outside_eq_false.not.mpr hout)) fun q hq hbefore => by
      obtain ⟨r', c', hr', hc', hb', rfl⟩ := mem_spriteTargets.mp hq
      have horder : r' < r ∨ (r' = r ∧ c' < c) := by simpa [Pixel.before] using hbefore
      exact target_outside_eq_false.mpr (hfirst r' c' hr' hc' hb' horder)
  rcases execDrw_cases x y n s with ⟨-, hall, -⟩ | ⟨-, hoob, -⟩ | ⟨-, p, -, -, hp, ht⟩
  · exact absurd (target_outside_eq_false.mp (hall _ hmem)) hout
  · simp only [Config.addrMax] at hoob
    rcases hread with h0 | hle <;> omega
  · have hcol : (s.reg x).toNat + c < 65536 := by omega
    have hinfo : p.faultInfo = ((s.reg y).toNat + r) * 65536 + ((s.reg x).toNat + c) :=
      (congrArg Trap.info (Except.error.inj (hp.symm.trans hcheck))).trans (faultInfo_eq _ hcol)
    exact ⟨_, ht, faultsWith_raiseFault s rfl hinfo (by omega)⟩

/-- Settles O49: it holds, the second draw finding the same rows and coordinates and toggling the same cells. -/
theorem drawTwiceRestores : Obligations.DrawTwiceRestores := by
  intro s x y n hx hy hread hin
  have hregx : (s.drawSprite (s.spriteTargets x y n)).reg x = s.reg x := regsKeptBut_drawSprite _ x (by simpa using hx)
  have hregy : (s.drawSprite (s.spriteTargets x y n)).reg y = s.reg y := regsKeptBut_drawSprite _ y (by simpa using hy)
  have htargets : (s.drawSprite (s.spriteTargets x y n)).spriteTargets x y n = s.spriteTargets x y n := by
    rw [State.spriteTargets, hregx, hregy]
    rfl
  have hin' : spriteInside (s.drawSprite (s.spriteTargets x y n)) x y n := by
    rw [spriteInside_iff, htargets]
    exact spriteInside_iff.mp hin
  refine ⟨_, _, exec_drw_of_inside hread hin, exec_drw_of_inside hread hin', fun k _ => ?_⟩
  rw [cell_drawSprite hin', htargets, cell_drawSprite hin, Bool.xor_assoc, Bool.xor_self, Bool.xor_false]

end Sys2Proof.Machine
end

section
/-! PROOF. The host's operations (10_state.md sections 7 to 9, 70_reset_and_hazards.md). -/

namespace Sys2Proof.Machine

open Sys2Proof.Safety

/-! ### Initialization with the default font -/

/-- Bytes that unlisted addresses read as leave nothing to list. -/
theorem Memory.cells_eq_nil {a : Nat} {bs : List Byte} (h : ∀ k (hk : k < bs.length), bs[k] = Memory.unlisted (a + k)) :
    Memory.cells a bs = [] := by
  induction bs generalizing a with
  | nil => rfl
  | cons b bs ih =>
    have hb : b = Memory.unlisted a := h 0 (Nat.zero_lt_succ _)
    rw [Memory.cells, if_pos hb]
    refine ih fun k hk => ?_
    rw [Nat.add_assoc, Nat.add_comm 1 k]
    exact h (k + 1) (Nat.succ_lt_succ hk)

theorem length_defaultFont : defaultFont.length = Config.fontSize := rfl

/-- The default font is what unlisted addresses read as, so loading it lists nothing. -/
theorem load_defaultFont : Memory.load [] 0 defaultFont = [] := by
  have hcells : Memory.cells 0 defaultFont = [] := Memory.cells_eq_nil fun k hk => by
    rw [Nat.zero_add, Memory.unlisted, if_pos (length_defaultFont ▸ hk), List.getD_eq_getElem _ _ hk]
  simp [Memory.load, hcells]

/-- Settles O55: it holds; see `load_defaultFont`. -/
theorem resetIsInitializeWithDefaultFont : Obligations.ResetIsInitializeWithDefaultFont := by
  refine ⟨⟨defaultFont.toArray, length_defaultFont⟩, rfl, fun s hs => ?_⟩
  rw [State.initCore, hs, show Memory.load [] 0 (Vector.toList ⟨defaultFont.toArray, _⟩) = [] from load_defaultFont]
  rfl

/-! ### Loading a program -/

theorem loadResult_of_fits {bytes : List Byte} (hlen : bytes.length ≤ 3584) : loadResult bytes = .ok :=
  if_pos (decide_eq_true hlen)

theorem loadResult_of_too_large {bytes : List Byte} (hlen : 3584 < bytes.length) : loadResult bytes = .romTooLarge :=
  if_neg (by simpa [romFits] using hlen)

section
variable {s : State} {bytes : List Byte} (hs : s.phase = .init)
include hs

theorem loadRom_of_fits (hlen : bytes.length ≤ 3584) :
    s.loadRom bytes = .next { s with mem := s.mem.load Config.progBase bytes, phase := .run } := by
  simp only [State.loadRom, hs, loadResult_of_fits hlen]

theorem loadRom_of_too_large (hlen : 3584 < bytes.length) : s.loadRom bytes = .next s := by
  simp only [State.loadRom, hs, loadResult_of_too_large hlen]

end

theorem loadRom_outside_init {s : State} (hs : s.phase ≠ .init) (bytes : List Byte) :
    s.loadRom bytes = .refused .loadOutsideInit := by
  cases hp : s.phase with
  | init => exact absurd hp hs
  | run | fault => simp only [State.loadRom, hp]

/-- The image's bytes stand from 0x200 on after a load. -/
theorem read_load_progBase (m : Memory) (bytes : List Byte) (k : Nat) (h : k < bytes.length) :
    (m.load Config.progBase bytes).read (0x200 + k) = bytes[k] := by
  rw [Memory.read_load, dif_pos ⟨Nat.le_add_right _ _, Nat.add_lt_add_left h _⟩]
  simp

/-- Settles O56: it holds, the phase and the length selecting the three outcomes. -/
theorem loadRomOutcomes : Obligations.LoadRomOutcomes := by
  intro s bytes
  refine ⟨fun hs hlen => ⟨loadResult_of_fits hlen, _, loadRom_of_fits hs hlen,
    read_load_progBase s.mem bytes, fun b hb => ?kept, rfl, rfl, rfl, ?frame⟩,
    fun hs hlen => ⟨loadResult_of_too_large hlen, loadRom_of_too_large hs hlen⟩,
    fun hs => loadRom_outside_init hs bytes⟩
  case kept => rw [Memory.read_load, dif_neg hb]
  case frame =>
    have hframe : writesOnly [.memory, .run] s { s with mem := s.mem.load Config.progBase bytes, phase := .run } := rfl
    exact hframe.changesOnly

/-- Settles O58: it holds, `initialize` leaving phase INIT and `pc` 0x200 and the load putting the image there. -/
theorem bootFetchesFirstTwoBytes : Obligations.BootFetchesFirstTwoBytes := by
  intro s font hi lo rest w hlen hw
  have hpc : fetchable 0x200#16 := pcValid_iff.mp (by decide)
  have hread := read_load_progBase (s.initCore font).mem (hi :: lo :: rest)
  refine ⟨_, loadRom_of_fits rfl hlen, rfl, rfl, hpc, ?_⟩
  rw [wordAt, hw]
  exact congrArg₂ (fun a b : Byte => a.toNat * 256 + b.toNat) (hread 0 (Nat.zero_lt_succ _)).symm
    (hread 1 (Nat.succ_lt_succ (Nat.zero_lt_succ _))).symm

/-! ### Key writes -/

theorem setKey_of_index_ok (s : State) {index : Nat} (h : index ≤ 15) (pressed : Bool) :
    s.setKey index pressed = .next { s with keys := s.keys.setIfInBounds index pressed } := by
  simp [State.setKey, keyIndexOk, h]

theorem setKey_of_index_out (s : State) {index : Nat} (h : 15 < index) (pressed : Bool) :
    s.setKey index pressed = .refused .keyIndexOutOfDomain := by
  simp [State.setKey, keyIndexOk, h]

theorem key_eq_getElem (s : State) {k : Nat} (hk : k < 16) : s.key k = s.keys[k] := by
  simp [State.key, hk]

/-- Settles O57: it holds, `setKey` being one write of the key vector. -/
theorem setKeyWritesOneFlag : Obligations.SetKeyWritesOneFlag := by
  intro s index pressed
  refine ⟨fun h => ⟨_, setKey_of_index_ok s h pressed, ?written, fun k hk hne => ?kept, ?frame⟩,
    fun h => setKey_of_index_out s h pressed⟩
  case written => simp [key_eq_getElem _ (Nat.lt_succ_of_le h)]
  case kept => simp [key_eq_getElem _ hk, Ne.symm hne]
  case frame =>
    have hframe : writesOnly [.keys] s { s with keys := s.keys.setIfInBounds index pressed } := rfl
    exact hframe.changesOnly

/-! ### Phases -/

/-- Settles O59: it holds; each of the four moves has its row of the transition table. -/
theorem phaseTransitions : Obligations.PhaseTransitions := by
  intro op s t h
  cases op with
  | initCore font =>
    cases h
    exact Or.inl ⟨font, rfl, rfl⟩
  | loadRom bytes =>
    have hs : s.phase = .init := by
      by_contra hs
      cases (loadRom_outside_init hs bytes).symm.trans h
    refine Or.inr (Or.inl ⟨bytes, rfl, hs, ?_⟩)
    by_cases hlen : bytes.length ≤ 3584
    · cases (loadRom_of_fits hs hlen).symm.trans h
      rw [if_pos hlen]
    · cases (loadRom_of_too_large hs (Nat.lt_of_not_le hlen)).symm.trans h
      rw [if_neg hlen, hs]
  | setKey index pressed => exact Or.inr (Or.inr (Or.inl ⟨index, pressed, rfl, setKey_keeps_phase h⟩))
  | step =>
    rcases step_phases (step_cases h) with ⟨hs, ht⟩ | ⟨hs, ht⟩
    · exact Or.inr (Or.inr (Or.inr (Or.inl ⟨rfl, hs, ht⟩)))
    · exact Or.inr (Or.inr (Or.inr (Or.inr ⟨rfl, hs, ht⟩)))

end Sys2Proof.Machine
end

section
/-! PROOF. The invariants: memory canonical (Memory.wf), `pc` and the stack bounded, a fault recorded exactly in
FAULT, a clean machine in INIT; every step and every move of the host keeps them (10_state.md sections 3 and 9,
41_control_flow.md section 2, 70_reset_and_hazards.md sections 1 to 3). -/

namespace Sys2Proof.Machine

open Sys2Proof.Safety

/-! ### A fault recorded exactly in FAULT -/

theorem code_ne_zero (c : FaultCause) : c.code ≠ 0#4 := by
  cases c <;> decide

theorem faultRecorded_raiseFault (trap : Trap) (s : State) : faultRecorded (raiseFault trap s) :=
  ⟨iff_of_true rfl (code_ne_zero trap.cause), (code_bounds trap.cause).2, fun h => absurd h (code_ne_zero trap.cause)⟩

/-- The invariant speaks of the three run-control registers only. -/
theorem faultRecorded_of_eq {s t : State} (h : faultRecorded s) (hp : t.phase = s.phase) (hc : t.fcause = s.fcause)
    (ha : t.faddr = s.faddr) : faultRecorded t := by
  rwa [faultRecorded, hp, hc, ha]

theorem step_keeps_faultRecorded {s t : State} (hs : faultRecorded s) (h : step s = .next t) : faultRecorded t := by
  cases step_cases h with
  | stopped _ ht | unknown _ _ _ _ ht => exact faultRecorded_of_eq hs (by rw [ht]; rfl) (by rw [ht]; rfl) (by rw [ht]; rfl)
  | invalid _ _ ht | faulted _ _ _ _ _ _ _ ht => exact ht ▸ faultRecorded_raiseFault _ _
  | completed _ _ u _ _ _ hc ht => exact ht ▸ faultRecorded_of_eq hs hc.phase hc.fcause hc.faddr

/-- Settles O20: it holds; see `step_keeps_faultRecorded`. -/
theorem stepKeepsFaultRecorded : Obligations.StepKeepsFaultRecorded := fun _ _ => step_keeps_faultRecorded

/-! ### Where an instruction leaves `pc` -/

/-- The instructions that write `pc` other than by advancing it: 00EE, 1NNN, 2NNN and BNNN. -/
def Instr.transfers : Instr → Prop
  | .ret | .jp _ | .call _ | .jpV0 _ => True
  | _ => False

/-- `pc` stays or moves on by one or two words. -/
def State.advancesTo (s t : State) : Prop := t.pc = s.pc ∨ t.pc = s.pc + 2#16 ∨ t.pc = s.pc + 4#16

theorem advancesTo_raiseFault (trap : Trap) (s : State) : s.advancesTo (raiseFault trap s) := Or.inl rfl

theorem advancesTo_of_advance {s t : State} (h : t.pc = s.pc + 2#16) : s.advancesTo t := Or.inr (Or.inl h)

theorem advancesTo_skipIf (c : Bool) (s : State) : s.advancesTo (s.skipIf c) := by
  cases c
  · exact Or.inr (Or.inl rfl)
  · exact Or.inr (Or.inr rfl)

theorem storeAtIdx_advances {s t : State} {bs : List Byte} (h0 : bs ≠ [])
    (he : conclude s (s.storeAtIdx bs) = .next t) : s.advancesTo t := by
  rcases storeAtIdx_cases s bs h0 with ⟨-, -, u, hu, -, -, hus⟩ | ⟨-, hu⟩ | ⟨-, hu⟩ <;> cases he.symm.trans hu
  · exact advancesTo_of_advance (by rw [hus])
  · exact advancesTo_raiseFault _ s
  · exact advancesTo_raiseFault _ s

/-- Every instruction but a control transfer leaves `pc` or moves it on by one or two words. -/
theorem exec_advances {i : Instr} {s t : State} (hi : ¬Instr.transfers i) (he : exec i s = .next t) : s.advancesTo t := by
  cases i with
  | ret | jp | call | jpV0 => exact absurd trivial hi
  | seVxNn | sneVxNn | seVxVy | sneVxVy =>
    cases he
    exact advancesTo_skipIf _ s
  | skp x =>
    rcases execSkp_cases x s with ⟨-, hu⟩ | ⟨-, hu⟩ <;> cases he.symm.trans hu
    · exact advancesTo_skipIf _ s
    · exact advancesTo_raiseFault _ s
  | sknp x =>
    rcases execSknp_cases x s with ⟨-, hu⟩ | ⟨-, hu⟩ <;> cases he.symm.trans hu
    · exact advancesTo_skipIf _ s
    · exact advancesTo_raiseFault _ s
  | drw x y n =>
    rcases execDrw_cases x y n s with ⟨-, -, hu⟩ | ⟨-, -, hu⟩ | ⟨-, p, -, -, -, hu⟩ <;> cases he.symm.trans hu
    · exact advancesTo_of_advance rfl
    · exact advancesTo_raiseFault _ s
    · exact advancesTo_raiseFault _ s
  | ldBVx x => exact storeAtIdx_advances (by simp [bcdDigits]) he
  | ldMemVx x => exact storeAtIdx_advances (s.regsUpTo_ne_nil x) he
  | ldVxMem x =>
    rcases execLdVxMem_cases x s with ⟨-, u, hu, -, hus⟩ | ⟨-, hu⟩ <;> cases he.symm.trans hu
    · exact advancesTo_of_advance (by rw [hus])
    · exact advancesTo_raiseFault _ s
  | ldVxK x =>
    simp only [exec, execLdVxK] at he
    split at he <;> cases he
    · exact advancesTo_of_advance rfl
    · exact Or.inl rfl
  | _ =>
    cases he
    exact advancesTo_of_advance rfl

/-! ### `pc` and the stack bounded -/

/-- The invariant speaks of `pc`, the stack pointer and the slots only. -/
theorem pcAndStackBounded_of_same_stack {s t : State} (h : pcAndStackBounded s) (hpc : t.pc.toNat ≤ 0x10FE)
    (hs : Part.stack.same s t) : pcAndStackBounded t := by
  obtain ⟨hsp, hslot⟩ := hs
  refine ⟨hpc, fun k hk => ?_⟩
  have hbound := t.sp.isLt
  rw [hslot k (by omega)]
  exact h.2 k (hsp ▸ hk)

/-- At most two words on from a valid fetch address `pc` is still within its bound. -/
theorem pc_le_of_advancesTo {s t : State} (hf : fetchable s.pc) (h : s.advancesTo t) : t.pc.toNat ≤ 0x10FE := by
  obtain ⟨-, -, hhi⟩ := hf
  rcases h with h | h | h <;> rw [h]
  · omega
  · bv_omega
  · bv_omega

theorem execRet_keeps_pcAndStackBounded {s t : State} (h : pcAndStackBounded s) (he : execRet s = .next t) :
    pcAndStackBounded t := by
  rcases execRet_cases s with ⟨hne, u, hu, -, hsp, hus⟩ | ⟨-, hu⟩ <;> cases he.symm.trans hu
  · have hpc : t.pc = s.slot (s.sp.val - 1) + 2#16 := by rw [hus]
    have hslot (k : Nat) : t.slot k = s.slot k := by rw [hus]; rfl
    obtain ⟨-, -, hhi⟩ := h.2 (s.sp.val - 1) (by omega)
    refine ⟨by rw [hpc]; bv_omega, fun k hk => ?_⟩
    rw [hslot]
    exact h.2 k (by omega)
  · exact h

theorem execCall_keeps_pcAndStackBounded {nnn : Addr12} {s t : State} (hf : fetchable s.pc) (h : pcAndStackBounded s)
    (he : execCall nnn s = .next t) : pcAndStackBounded t := by
  rcases execCall_cases nnn s with ⟨-, u, hu, -, hsp, htop, hother, hus⟩ | ⟨-, hu⟩ <;> cases he.symm.trans hu
  · have hpc : t.pc = addrOperand nnn := by rw [hus]
    have hn := nnn.isLt
    refine ⟨by rw [hpc, toNat_addrOperand]; omega, fun k hk => ?_⟩
    by_cases hk' : k = s.sp.val
    · rwa [hk', htop]
    · rw [hother k hk']
      exact h.2 k (by omega)
  · exact h

/-- An instruction at a valid fetch address keeps the bounds: a call pushes that address and a return pops one. -/
theorem exec_keeps_pcAndStackBounded {i : Instr} {s t : State} (hf : fetchable s.pc) (h : pcAndStackBounded s)
    (he : exec i s = .next t) : pcAndStackBounded t := by
  cases i with
  | ret => exact execRet_keeps_pcAndStackBounded h he
  | call nnn => exact execCall_keeps_pcAndStackBounded hf h he
  | jp nnn =>
    cases he
    have hn := nnn.isLt
    exact ⟨by rw [setPc_pc, toNat_addrOperand]; omega, h.2⟩
  | jpV0 nnn =>
    cases he
    have hn := nnn.isLt
    have hb := (s.reg 0#4).isLt
    exact ⟨by rw [setPc_pc, toNat_addrOperand_add]; omega, h.2⟩
  | _ =>
    exact pcAndStackBounded_of_same_stack h (pc_le_of_advancesTo hf (exec_advances id he))
      (same_of_not_mem_writes (p := .stack) he (by simp [Instr.writes]) (by decide))

theorem step_keeps_pcAndStackBounded {s t : State} (hs : pcAndStackBounded s) (h : step s = .next t) :
    pcAndStackBounded t := by
  cases step_cases h with
  | stopped _ ht | invalid _ _ ht | faulted _ _ _ _ _ _ _ ht => exact ht ▸ hs
  | unknown _ _ hf _ ht =>
    obtain ⟨-, ⟨-, -, hhi⟩, -⟩ := hf
    subst ht
    exact ⟨by rw [tick_pc, execUnknown_pc, clearOutputs_pc]; bv_omega, hs.2⟩
  | completed _ _ u hf _ he _ ht =>
    obtain ⟨-, hpc, -⟩ := hf
    subst ht
    exact (exec_keeps_pcAndStackBounded (s := s.clearOutputs) hpc hs he :)

/-- Settles O19: it holds; see `step_keeps_pcAndStackBounded`. -/
theorem stepKeepsPcAndStackBounded : Obligations.StepKeepsPcAndStackBounded := fun _ _ => step_keeps_pcAndStackBounded

/-! ### All invariants, every move -/

/-- The four invariants of an execution. -/
def meetsInvariants (s : State) : Prop :=
  memoryCanonical s ∧ pcAndStackBounded s ∧ faultRecorded s ∧ cleanWhileInit s

/-- Outside INIT nothing has to be clean. -/
theorem cleanWhileInit_of_phase_ne {s : State} (h : s.phase ≠ .init) : cleanWhileInit s := fun hp => absurd hp h

theorem initCore_meetsInvariants (s : State) (font : Font) : meetsInvariants (s.initCore font) := by
  refine ⟨Memory.wf_load rfl 0 font.toList ?fits, ⟨?pc, fun k hk => absurd hk (Nat.not_lt_zero k)⟩,
    ⟨iff_of_false Phase.noConfusion fun h => h rfl, Nat.zero_le _, fun _ => rfl⟩, fun _ => ⟨initCore_reg s font, rfl, rfl, rfl,
      fun k _ => initCore_slot s font k, rfl, rfl, fun k _ => initCore_cell s font k, fun a ha => ?zeros⟩⟩
  case fits => simp only [Vector.length_toList, Config.fontSize, Config.addrMax]; omega
  case pc => exact (by decide : (0x200#16).toNat ≤ 0x10FE)
  case zeros => rw [initCore_mem_read, dif_neg (Nat.not_lt.mpr ha)]

theorem loadRom_keeps_invariants {s t : State} {bytes : List Byte} (hs : meetsInvariants s)
    (h : s.loadRom bytes = .next t) : meetsInvariants t := by
  have hinit : s.phase = .init := by
    by_contra hne
    cases (loadRom_outside_init hne bytes).symm.trans h
  by_cases hlen : bytes.length ≤ 3584
  · cases (loadRom_of_fits hinit hlen).symm.trans h
    obtain ⟨hmem, hpc, ⟨hphase, hcode, haddr⟩, -⟩ := hs
    have hwf : (s.mem.load Config.progBase bytes).wf :=
      Memory.wf_load hmem Config.progBase bytes (by simp only [Config.progBase, Config.addrMax]; omega)
    have hcause : s.fcause = 0#4 := by simpa [hinit] using hphase
    exact ⟨hwf, hpc, ⟨iff_of_false Phase.noConfusion fun hne => hne hcause, hcode, haddr⟩,
      cleanWhileInit_of_phase_ne Phase.noConfusion⟩
  · cases (loadRom_of_too_large hinit (Nat.lt_of_not_le hlen)).symm.trans h
    exact hs

theorem setKey_keeps_invariants {s t : State} {index : Nat} {pressed : Bool} (hs : meetsInvariants s)
    (h : s.setKey index pressed = .next t) : meetsInvariants t := by
  by_cases hi : index ≤ 15
  · cases (setKey_of_index_ok s hi pressed).symm.trans h
    exact hs
  · cases (setKey_of_index_out s (Nat.lt_of_not_le hi) pressed).symm.trans h

theorem step_keeps_invariants {s t : State} (hs : meetsInvariants s) (h : step s = .next t) : meetsInvariants t := by
  obtain ⟨hmem, hpc, hfault, -⟩ := hs
  refine ⟨(step_keeps_memory h).1 hmem, step_keeps_pcAndStackBounded hpc h, step_keeps_faultRecorded hfault h,
    cleanWhileInit_of_phase_ne fun hp => ?_⟩
  rcases step_phases (step_cases h) with ⟨-, ht | ht⟩ | ⟨-, ht⟩ <;> simp [hp] at ht

/-- Settles O21: it holds, each of the four moves keeping the invariants. -/
theorem everyMoveKeepsInvariants : Obligations.EveryMoveKeepsInvariants := by
  intro op s t h hs
  cases op with
  | initCore font =>
    cases h
    exact initCore_meetsInvariants s font
  | loadRom bytes => exact loadRom_keeps_invariants hs h
  | setKey index pressed => exact setKey_keeps_invariants hs h
  | step => exact step_keeps_invariants hs h

/-- Settles O22: it holds, `State.reset` being what `initialize` leaves with the default font. -/
theorem resetMeetsInvariants : Obligations.ResetMeetsInvariants := by
  obtain ⟨font, -, hreset⟩ := resetIsInitializeWithDefaultFont
  have h := initCore_meetsInvariants State.reset font
  rwa [hreset State.reset rfl] at h

end Sys2Proof.Machine
end
